-- ==== Sys2Proof/Word.lean ====
section
/-! DEFINITION. The word types of the block: every register of the window is one 32-bit word (spec 00_scope R5). -/

namespace Sys2Proof

/-- A register word of the window, 32 bits (R5 `REG_WIDTH`). -/
abbrev Word := BitVec 32

/-- One byte lane of the host bus (20_memory R39). -/
abbrev Byte := BitVec 8

/-- A byte offset inside the 64-byte window (R5 `WINDOW_BYTES`, 20_memory R35). -/
abbrev Offset := BitVec 6

end Sys2Proof
end

