-- ==== Sys2Proof/Config.lean ====
section
/-! DEFINITION. The block's parameters (00_scope R5) and the free values the spec leaves open (93_implementation_defined). -/

namespace Sys2Proof.Config

/-- `US_PER_S`: microseconds in one second (R5). -/
def usPerS : Int := 1000000

/-- `COUNTER_STEPS`: steps of the 12-bit duty counter (R5). -/
def counterSteps : Int := 4096

/-- `DUTY_MAX`: the largest duty count (R5). -/
def dutyMax : Int := 4095

/-- The largest channel index, `N_CHANNELS - 1` (R5). -/
def channelMax : Int := 15

/-- `2 ^ PULSE_FRAC`: raw pulse units in one microsecond (R5, R9). -/
def pulseScale : Int := 1024

/-- `2 ^ ANGLE_FRAC`: raw angle units in one degree (R5, R9). -/
def angleScale : Int := 65536

/-- `DEFAULT_PULSE_MIN`, 1000 microseconds (R5). -/
def defaultPulseMin : Word := 0x000FA000#32

/-- `DEFAULT_PULSE_MAX`, 2000 microseconds (R5). -/
def defaultPulseMax : Word := 0x001F4000#32

/-- `DEFAULT_ANGLE_MIN`, 0 degrees (R5). -/
def defaultAngleMin : Word := 0x00000000#32

/-- `DEFAULT_ANGLE_MAX`, 180 degrees (R5). -/
def defaultAngleMax : Word := 0x00B40000#32

/-- `DEFAULT_FREQ`, 40 Hz: the reset value of FREQ (R5). -/
def defaultFreq : Word := 40#32

/-- Free value (93 row 2): the data word carried by the `n`-th free choice when a read is answered `SLVERR`.
No body: nothing is known of it. DESIGN CHOICE of the form, log entry 4; safe. -/
opaque slverrData : Nat → Word

/-- Free value (93 row 3, R124): whether an access that overlaps a reset is performed before it.
No body: nothing is known of it. DESIGN CHOICE of the form, log entry 5; safe. -/
opaque overlapPerformed : Nat → Bool

/-- Parameter (93 row 11, R35): where the window stands in the host's address map. No rule of the block reads it. -/
opaque base : Nat

end Sys2Proof.Config
end

