-- ==== Sys2Proof/Machine/Bits.lean ====
section
/-! DEFINITION. Readings of words: signed values, zero extension, fields and byte lanes (00_scope R6, 20_memory R39, 30_encoding R54). -/

namespace Sys2Proof.Machine

/-- `sint32(w)`: the word read as a two's-complement integer (R6). -/
def sint32 (w : Word) : Int := w.toInt

/-- `word32(n)`: the two's-complement word of an integer in range (R6). -/
def word32 (n : Int) : Word := BitVec.ofInt 32 n

/-- `zext_32(v)` (R6). -/
def zext32 {n : Nat} (v : BitVec n) : Word := v.setWidth 32

/-- OP, bits 3:0 of a command word (R54). -/
def opField (w : Word) : BitVec 4 := w.extractLsb' 0 4

/-- RES, bits 31:4 of a command word (R54). -/
def resField (w : Word) : BitVec 28 := w.extractLsb' 4 28

/-- `addr[1:0]`, the bits an aligned access has zero (R38). -/
def alignField (a : Offset) : BitVec 2 := a.extractLsb' 0 2

/-- Byte lane `k` of a word: bits `[8k+7 : 8k]` (R39). -/
def laneByte (w : Word) (k : Fin 4) : Byte := w.extractLsb' (8 * k.val) 8

/-- The word whose byte lanes 0 to 3 are the given bytes, lane 0 in bits 7:0 (R39). -/
def wordOfLanes (b0 b1 b2 b3 : Byte) : Word := b3 ++ (b2 ++ (b1 ++ b0))

end Sys2Proof.Machine
end

