-- ==== Sys2Proof/Machine/Bus.lean ====
section
/-! DEFINITION. What crosses the host bus: requests, responses, and the host steps of the block (00_scope R4, 20_memory R36, R37, R40). -/

namespace Sys2Proof.Machine

/-- A read, or a write with the word on the data bus (R40 `kind` and `v`). -/
inductive Access where
  | read
  | write (v : Word)
  deriving DecidableEq, Repr

/-- One host access as the bus presents it (R37, R40). An address outside the window never reaches the block (R41),
so the offset has 6 bits. -/
structure Request where
  access : Access
  addr   : Offset
  /-- The size field in bytes. -/
  size   : Nat
  /-- The byte lanes enabled, lane `k` in bit `k`. -/
  lanes  : BitVec 4
  deriving DecidableEq, Repr

/-- One step of the block (R4): an access or a reset.
An access that overlaps a reset is performed wholly before the reset or not at all (70_reset R124). -/
inductive HostStep where
  | access (q : Request)
  | reset
  | resetDuring (q : Request)
  deriving DecidableEq, Repr

/-- The two bus responses (R40). -/
inductive Resp where
  | ok
  | slverr
  deriving DecidableEq, Repr

/-- What the host gets for one access: the response, and for a read the word on the data bus (R40). -/
structure Reply where
  resp : Resp
  data : Option Word
  deriving DecidableEq, Repr

/-- The registers of the window by name (R36). -/
inductive RegName where
  | cmd | opa | opb | status | channel | freq | ppu | pmin | pmax | amin | amax | angle | pulse | duty
  deriving DecidableEq, Repr

/-- The offset column of the register map (R36). -/
def offsetOf : RegName → Offset
  | .cmd => 0x00#6
  | .opa => 0x04#6
  | .opb => 0x08#6
  | .status => 0x0C#6
  | .channel => 0x10#6
  | .freq => 0x14#6
  | .ppu => 0x18#6
  | .pmin => 0x1C#6
  | .pmax => 0x20#6
  | .amin => 0x24#6
  | .amax => 0x28#6
  | .angle => 0x2C#6
  | .pulse => 0x30#6
  | .duty => 0x34#6

/-- All four byte lanes. -/
def allLanes : BitVec 4 := 0xF#4

/-- The whole word, with all lanes enabled (R37). -/
def isWholeWord (q : Request) : Bool := q.size == 4 && q.lanes == allLanes

/-- `addr[1:0] = 0` (R38). -/
def isAligned (q : Request) : Bool := alignField q.addr == 0#2

/-- A well-formed read of an offset. -/
def readReq (a : Offset) : Request := { access := .read, addr := a, size := 4, lanes := allLanes }

/-- A well-formed write of a word to an offset. -/
def writeReq (a : Offset) (v : Word) : Request := { access := .write v, addr := a, size := 4, lanes := allLanes }

/-- The bus-access key `{wr, addr[5:0]}` (30_encoding R61). -/
def busKey (q : Request) : BitVec 7 :=
  match q.access with
  | .read => 0#1 ++ q.addr
  | .write _ => 1#1 ++ q.addr

/-- The byte address in the host's map, and the byte there, for lane `k` of the register word `w` at offset `a` (R35, R39). -/
def hostByte (a : Offset) (w : Word) (k : Fin 4) : Nat × Byte := (Config.base + a.toNat + k.val, laneByte w k)

end Sys2Proof.Machine
end

