-- ==== Sys2Proof/Syntax.lean ====
section
/-! DEFINITION. The instructions of the block: one constructor per row of spec/opcode_table.json.
The four commands take no field of the command word (30_encoding R54): their operands are the registers OPA and OPB.
The two operand writes carry the written word; reads carry nothing. -/

namespace Sys2Proof

inductive Instr where
  /-- CONFIG, command word 0x00000001 (R77). -/
  | config
  /-- SET_PULSE_RANGE, command word 0x00000002 (R79). -/
  | setPulseRange
  /-- SET_ANGLE_RANGE, command word 0x00000003 (R81). -/
  | setAngleRange
  /-- SET_ANGLE, command word 0x00000004 (R83). -/
  | setAngle
  /-- WR_OPA, key 0x44 (R97). -/
  | wrOpa (v : Word)
  /-- WR_OPB, key 0x48 (R98). -/
  | wrOpb (v : Word)
  /-- RD_OPA, key 0x04 (R99). -/
  | rdOpa
  /-- RD_OPB, key 0x08 (R100). -/
  | rdOpb
  /-- RD_STATUS, key 0x0C (R96). -/
  | rdStatus
  /-- RD_CHANNEL, key 0x10 (R90). -/
  | rdChannel
  /-- RD_FREQ, key 0x14 (R89). -/
  | rdFreq
  /-- RD_PPU, key 0x18 (R95). -/
  | rdPpu
  /-- RD_PMIN, key 0x1C (R91). -/
  | rdPmin
  /-- RD_PMAX, key 0x20 (R92). -/
  | rdPmax
  /-- RD_AMIN, key 0x24 (R93). -/
  | rdAmin
  /-- RD_AMAX, key 0x28 (R94). -/
  | rdAmax
  /-- RD_ANGLE, key 0x2C (R86). -/
  | rdAngle
  /-- RD_PULSE, key 0x30 (R87). -/
  | rdPulse
  /-- RD_DUTY, key 0x34 (R88). -/
  | rdDuty
  deriving DecidableEq, Repr

end Sys2Proof
end

