-- ==== Sys2Proof/Decode.lean ====
section
/-! DEFINITION. Decoding of host accesses and command words (20_memory R40, 30_encoding R53 to R56, R61), and the encoder. -/

namespace Sys2Proof

open Sys2Proof.Machine

/-- Why the bus refuses an access (20_memory R37, R38, R41, R42). All are answered alike. -/
inductive BusError where
  | partialAccess
  | misaligned
  | unmapped
  | readOfCmd
  | writeToReadOnly
  deriving DecidableEq, Repr

/-- What an access is: an instruction of the table, a CMD write of an illegal word, or a bus error. -/
inductive Decoded where
  | instr (i : Instr)
  | illegalCommand (w : Word)
  | busError (e : BusError)
  deriving DecidableEq, Repr

/-- The command words (R53, R55): RES must be 0 and OP one of 1 to 4. -/
def decodeCommand (w : Word) : Option Instr :=
  if resField w ≠ 0#28 then none
  else if opField w = 0x1#4 then some .config
  else if opField w = 0x2#4 then some .setPulseRange
  else if opField w = 0x3#4 then some .setAngleRange
  else if opField w = 0x4#4 then some .setAngle
  else none

/-- The reads, by offset (the BUS rows with `wr = 0`, R61). -/
def decodeRead (a : Offset) : Option Instr :=
  if a = 0x04#6 then some .rdOpa
  else if a = 0x08#6 then some .rdOpb
  else if a = 0x0C#6 then some .rdStatus
  else if a = 0x10#6 then some .rdChannel
  else if a = 0x14#6 then some .rdFreq
  else if a = 0x18#6 then some .rdPpu
  else if a = 0x1C#6 then some .rdPmin
  else if a = 0x20#6 then some .rdPmax
  else if a = 0x24#6 then some .rdAmin
  else if a = 0x28#6 then some .rdAmax
  else if a = 0x2C#6 then some .rdAngle
  else if a = 0x30#6 then some .rdPulse
  else if a = 0x34#6 then some .rdDuty
  else none

/-- A write of the word `v`, by offset (the BUS rows with `wr = 1`, R61; offset 0x00 runs the command `v`, R53). -/
def decodeWrite (a : Offset) (v : Word) : Decoded :=
  if a = 0x04#6 then .instr (.wrOpa v)
  else if a = 0x08#6 then .instr (.wrOpb v)
  else if a = 0x00#6 then
    match decodeCommand v with
    | some i => .instr i
    | none => .illegalCommand v
  else .busError .writeToReadOnly

/-- Every access, whole (R40): the checks stand in the order of its pseudocode. -/
def decode (q : Request) : Decoded :=
  if isWholeWord q = false then .busError .partialAccess
  else if isAligned q = false then .busError .misaligned
  else if q.addr = 0x38#6 ∨ q.addr = 0x3C#6 then .busError .unmapped
  else
    match q.access with
    | .read =>
      match decodeRead q.addr with
      | some i => .instr i
      | none => .busError .readOfCmd
    | .write v => decodeWrite q.addr v

/-- The access an instruction is: a command is a write of its word to CMD, the others are the BUS rows (R55, R61). -/
def encode : Instr → Request
  | .config => writeReq 0x00#6 0x00000001#32
  | .setPulseRange => writeReq 0x00#6 0x00000002#32
  | .setAngleRange => writeReq 0x00#6 0x00000003#32
  | .setAngle => writeReq 0x00#6 0x00000004#32
  | .wrOpa v => writeReq 0x04#6 v
  | .wrOpb v => writeReq 0x08#6 v
  | .rdOpa => readReq 0x04#6
  | .rdOpb => readReq 0x08#6
  | .rdStatus => readReq 0x0C#6
  | .rdChannel => readReq 0x10#6
  | .rdFreq => readReq 0x14#6
  | .rdPpu => readReq 0x18#6
  | .rdPmin => readReq 0x1C#6
  | .rdPmax => readReq 0x20#6
  | .rdAmin => readReq 0x24#6
  | .rdAmax => readReq 0x28#6
  | .rdAngle => readReq 0x2C#6
  | .rdPulse => readReq 0x30#6
  | .rdDuty => readReq 0x34#6

/-- The access a table word stands for (log entry 10).
A row of 32 bits (format CMD) is a command word, written to CMD.
A row of one byte (format BUS) is the key in bits 6:0 of that byte; the written word's bits count on from bit 8 and
are 0 where the table gives none. A byte with bit 7 set is no key. -/
def requestOfTableWord (nbits w : Nat) : Option Request :=
  if nbits = 32 then some (writeReq 0x00#6 (BitVec.ofNat 32 w))
  else if w.testBit 7 then none
  else if w.testBit 6 then some (writeReq (BitVec.ofNat 6 w) (BitVec.ofNat 32 (w / 256)))
  else some (readReq (BitVec.ofNat 6 w))

/-- The instruction the decoder reads from a table word. -/
def decodeTableWord (nbits w : Nat) : Option Instr :=
  match requestOfTableWord nbits w with
  | none => none
  | some q =>
    match decode q with
    | .instr i => some i
    | .illegalCommand _ => none
    | .busError _ => none

end Sys2Proof
end

