-- ==== Sys2Proof/Machine/State.lean ====
section
/-! DEFINITION. The state of the block (10_state R11), its reset value (R34), and the named stops. -/

namespace Sys2Proof.Machine

/-- The block's registers: exactly the state of R11. -/
structure Regs where
  /-- Operand A (R13). -/
  opa        : Word
  /-- Operand B (R14). -/
  opb        : Word
  /-- Channel index (R16). -/
  channel    : BitVec 4
  /-- Drive frequency, Hz, signed (R17). -/
  freq       : Word
  /-- Period constant, microseconds per duty count (R18). -/
  ppu        : BitVec 8
  /-- Lower pulse bound, Q22.10 microseconds (R19). -/
  pmin       : Word
  /-- Upper pulse bound (R20). -/
  pmax       : Word
  /-- Lower angle bound, Q16.16 degrees (R21). -/
  amin       : Word
  /-- Upper angle bound (R22). -/
  amax       : Word
  /-- Commanded angle (R23). -/
  angle      : Word
  /-- Current pulse width (R24). -/
  pulse      : Word
  /-- Current duty count (R25). -/
  duty       : BitVec 12
  /-- STATUS.ERR, STATUS bits 3:0 (R26, R27). -/
  err        : BitVec 4
  /-- STATUS.CONFIGURED, STATUS bit 4 (R26, R28). -/
  configured : Bool
  deriving DecidableEq, Repr

/-- The reset image (R34). -/
def Regs.reset : Regs where
  opa := 0x00000000#32
  opb := 0x00000000#32
  channel := 0x0#4
  freq := 0x00000028#32
  ppu := 0x06#8
  pmin := 0x000FA000#32
  pmax := 0x001F4000#32
  amin := 0x00000000#32
  amax := 0x00B40000#32
  angle := 0x00000000#32
  pulse := 0x000FA000#32
  duty := 0x0A6#12
  err := 0x0#4
  configured := false

/-- The block's registers, and beside them the model's own fields: the host's pending requests, the bus response
to the last access, and the counter of the free values (log entries 1, 3, 4). -/
structure State where
  regs    : Regs
  /-- Requests of the host, oldest first, that the block has not performed (20_memory R47). -/
  pending : List HostStep
  /-- The response to the last access; none before the first one and after a reset. -/
  reply   : Option Reply
  /-- How many free values have been taken. -/
  nFree   : Nat
  deriving DecidableEq, Repr

/-- The state right after reset: the registers of R34, nothing requested, nothing answered. -/
def State.reset : State where
  regs := Regs.reset
  pending := []
  reply := none
  nFree := 0

/-- The faults of the model. No state that satisfies the invariants of R30 reaches any of them. -/
inductive Fault where
  /-- Raised by INTERP: its result lies outside `[pmin, pmax]` (40_datapath R68, 60_exceptions R105, 93 row 1). Safe. -/
  | invalidPulse
  /-- Raised by a division outside the domain of `floor_div` (00_scope R8); log entry 7. Safe. -/
  | divisionDomain
  /-- Raised by a commit of a duty count that 12 bits cannot hold (40_datapath R73); log entry 8. Safe. -/
  | dutyWidth
  deriving DecidableEq, Repr

/-- The refusals of the model. -/
inductive Refusal where
  /-- An instruction with no meaning yet, by its mnemonic; no arm of `exec` raises it. Safe. -/
  | notModelled (mnemonic : String)
  /-- Raised by `step` when the host requests nothing: a step of the block is an access or a reset (R4); log entry 2. Safe. -/
  | noHostStep
  deriving DecidableEq, Repr

end Sys2Proof.Machine
end

