-- ==== Sys2Proof/Machine/Datapath.lean ====
section
/-! DEFINITION. The four pure functions of the datapath, on mathematical integers (40_datapath R65 to R69, 00_scope R6, R8). -/

namespace Sys2Proof.Machine

/-- `floor_div(a, b)`, the greatest `q` with `q * b <= a`, on its domain `a >= 0`, `b > 0` (R8).
Outside the domain the spec gives no quotient, and no rule divides there: a fault (log entry 7). -/
def floorDiv (a b : Int) : Except Fault Int :=
  if 0 ≤ a ∧ 0 < b then .ok (a / b) else .error .divisionDomain

/-- `PPU_OF(f)`, two nested truncations (R65). -/
def ppuOf (f : Int) : Except Fault Int :=
  match floorDiv Config.usPerS f with
  | .error e => .error e
  | .ok periodUs => floorDiv periodUs Config.counterSteps

/-- `QUANT(p, u)`: truncated, never rounded, not bounded (R66). -/
def quant (p u : Int) : Except Fault Int := floorDiv p (u * Config.pulseScale)

/-- `INTERP(a, amin, amax, pmin, pmax)`: one product, one truncating division, and the InvalidPulse check (R67, R68). -/
def interp (a amin amax pmin pmax : Int) : Except Fault Int :=
  match floorDiv ((pmax - pmin) * (a - amin)) (amax - amin) with
  | .error e => .error e
  | .ok q => if pmin + q < pmin ∨ pmax < pmin + q then .error .invalidPulse else .ok (pmin + q)

/-- `CLAMP(a, lo, hi)` (R69). -/
def clamp (a lo hi : Int) : Int :=
  if a < lo then lo else if hi < a then hi else a

/-- A duty count on its way into the 12-bit DUTY register, which never holds a truncated one (R73; log entry 8). -/
def dutyBits (d : Int) : Except Fault (BitVec 12) :=
  if 0 ≤ d ∧ d ≤ Config.dutyMax then .ok (BitVec.ofInt 12 d) else .error .dutyWidth

end Sys2Proof.Machine
end

