-- ==== Sys2Proof/Machine/Flags.lean ====
section
/-! DEFINITION. STATUS.ERR, the block's only condition field, and the error codes it takes (10_state R27, 60_exceptions R102). -/

namespace Sys2Proof.Machine

/-- The error kinds of R102. InvalidPulse has a code but is never written: its firing is a fault (R105, log entry 6). -/
inductive CommandError where
  | invalidRange
  | outOfRange
  | invalidPulse
  | indexOutOfRange
  | invalidFrequency
  | dutyRange
  | notConfigured
  | illegalCommand
  deriving DecidableEq, Repr

/-- The code column of R102. -/
def errorCode : CommandError → BitVec 4
  | .invalidRange => 1#4
  | .outOfRange => 2#4
  | .invalidPulse => 3#4
  | .indexOutOfRange => 4#4
  | .invalidFrequency => 5#4
  | .dutyRange => 6#4
  | .notConfigured => 7#4
  | .illegalCommand => 8#4

/-- The code of success (R102). -/
def okCode : BitVec 4 := 0#4

end Sys2Proof.Machine
end

