-- ==== Sys2Proof/Machine/Operands.lean ====
section
/-! DEFINITION. How the commands read their operands and registers as integers (30_encoding R57 to R60, 00_scope R9),
and the content column of the register map (20_memory R36). -/

namespace Sys2Proof.Machine

/-- The first operand: the channel of CONFIG, the lower bound of the range commands, the angle of SET_ANGLE (R57 to R60). -/
def operandA (r : Regs) : Int := sint32 r.opa

/-- The second operand: the frequency of CONFIG, the upper bound of the range commands (R57 to R59). SET_ANGLE reads none. -/
def operandB (r : Regs) : Int := sint32 r.opb

/-- PPU as the unsigned integer it is (R9, R18). -/
def ppuVal (r : Regs) : Int := (r.ppu.toNat : Int)

/-- The word a read of STATUS returns: `{zext_27(0), CONFIGURED, ERR}` (R26, R96). -/
def statusWord (r : Regs) : Word := 0#27 ++ (BitVec.ofBool r.configured ++ r.err)

/-- `read_value`: the word each readable register returns, none for the write-only CMD (R36, R85). -/
def readValue (r : Regs) : RegName → Option Word
  | .cmd => none
  | .opa => some r.opa
  | .opb => some r.opb
  | .status => some (statusWord r)
  | .channel => some (zext32 r.channel)
  | .freq => some r.freq
  | .ppu => some (zext32 r.ppu)
  | .pmin => some r.pmin
  | .pmax => some r.pmax
  | .amin => some r.amin
  | .amax => some r.amax
  | .angle => some r.angle
  | .pulse => some r.pulse
  | .duty => some (zext32 r.duty)

end Sys2Proof.Machine
end

