-- ==== Sys2Proof/Machine/Ops.lean ====
section
/-! DEFINITION. The operations the meanings share: answering the bus, raising a command error, committing a command's results. -/

namespace Sys2Proof.Machine

/-- The outcome of one step of the block. -/
abbrev StepResult := Host.Outcome State Fault Refusal

/-- A read answered `OK` with a word: no register changes (20_memory R40, R43). -/
def answerRead (w : Word) (s : State) : StepResult :=
  .next { s with reply := some { resp := .ok, data := some w } }

/-- A write answered `OK` that leaves the registers `r` (R40). -/
def answerWrite (r : Regs) (s : State) : StepResult :=
  .next { s with regs := r, reply := some { resp := .ok, data := none } }

/-- An access answered `SLVERR`: no register changes. The data of a refused read is a free value (R40, 93 row 2, log entry 4). -/
def answerBusError (q : Request) (s : State) : StepResult :=
  match q.access with
  | .read =>
    .next { s with reply := some { resp := .slverr, data := some (Config.slverrData s.nFree) }, nFree := s.nFree + 1 }
  | .write _ => .next { s with reply := some { resp := .slverr, data := none } }

/-- How a command ends: it commits registers, raises an error, or reaches a fault. -/
inductive CommandEnd where
  | commit (r : Regs)
  | raise (e : CommandError)
  | fault (f : Fault)
  deriving DecidableEq, Repr

/-- `raise E`: STATUS.ERR gets the code and nothing else changes. This is the block's whole exception entry: it has no
trap, saves nothing and returns from nothing (00_scope R7, 60_exceptions R101, R113, R114). -/
def raiseError (e : CommandError) (r : Regs) : Regs := { r with err := errorCode e }

/-- The end of the command frame: a commit writes its registers and then ERR 0, a raise writes only ERR, and the CMD
write is answered `OK` either way (R7, 40_datapath R74, R101). -/
def finishCommand (c : CommandEnd) (s : State) : StepResult :=
  match c with
  | .commit r => answerWrite { r with err := okCode } s
  | .raise e => answerWrite (raiseError e s.regs) s
  | .fault f => .fault f

/-- Step 2 of the command frame: NotConfigured, for every command but CONFIG (R74, R109). -/
def whenConfigured (r : Regs) (c : CommandEnd) : CommandEnd :=
  if r.configured then c else .raise .notConfigured

/-- Steps 4 and 5 of the frame for the values every commit has: PULSE and DUTY from the angle and ranges that `r`
already holds (R24, R25, R74). -/
def commitPosition (r : Regs) : CommandEnd :=
  match interp (sint32 r.angle) (sint32 r.amin) (sint32 r.amax) (sint32 r.pmin) (sint32 r.pmax) with
  | .error e => .fault e
  | .ok p =>
    match quant p (ppuVal r) with
    | .error e => .fault e
    | .ok d =>
      match dutyBits d with
      | .error e => .fault e
      | .ok duty => .commit { r with pulse := word32 p, duty := duty }

/-- The reset event: every register at its reset value at once (70_reset R124). A reset is no access and gets no
response (log entry 11). -/
def applyReset (s : State) : State := { s with regs := Regs.reset, reply := none }

end Sys2Proof.Machine
end

