-- ==== Sys2Proof/Machine/Accessors.lean ====
section
/-! DEFINITION. The register accessors and the operand writes (44_accessors R85 to R100). No access here writes STATUS. -/

namespace Sys2Proof.Machine

/-- WR OPA: the word is stored whole and unchecked (R97). -/
def execWrOpa (v : Word) (s : State) : StepResult := answerWrite { s.regs with opa := v } s

/-- WR OPB (R98). -/
def execWrOpb (v : Word) (s : State) : StepResult := answerWrite { s.regs with opb := v } s

/-- RD OPA (R99). -/
def execRdOpa (s : State) : StepResult := answerRead s.regs.opa s

/-- RD OPB (R100). -/
def execRdOpb (s : State) : StepResult := answerRead s.regs.opb s

/-- RD STATUS: reading does not clear ERR (R96). -/
def execRdStatus (s : State) : StepResult := answerRead (statusWord s.regs) s

/-- RD CHANNEL (R90). -/
def execRdChannel (s : State) : StepResult := answerRead (zext32 s.regs.channel) s

/-- RD FREQ (R89). -/
def execRdFreq (s : State) : StepResult := answerRead s.regs.freq s

/-- RD PPU (R95). -/
def execRdPpu (s : State) : StepResult := answerRead (zext32 s.regs.ppu) s

/-- RD PMIN (R91). -/
def execRdPmin (s : State) : StepResult := answerRead s.regs.pmin s

/-- RD PMAX (R92). -/
def execRdPmax (s : State) : StepResult := answerRead s.regs.pmax s

/-- RD AMIN (R93). -/
def execRdAmin (s : State) : StepResult := answerRead s.regs.amin s

/-- RD AMAX (R94). -/
def execRdAmax (s : State) : StepResult := answerRead s.regs.amax s

/-- RD ANGLE (R86). -/
def execRdAngle (s : State) : StepResult := answerRead s.regs.angle s

/-- RD PULSE (R87). -/
def execRdPulse (s : State) : StepResult := answerRead s.regs.pulse s

/-- RD DUTY (R88). -/
def execRdDuty (s : State) : StepResult := answerRead (zext32 s.regs.duty) s

end Sys2Proof.Machine
end

