-- ==== Sys2Proof/Machine/Calibration.lean ====
section
/-! DEFINITION. The calibration commands (42_calibration R79, R81). -/

namespace Sys2Proof.Machine

/-- SET_PULSE_RANGE(OPA, OPB) after the NotConfigured check: InvalidRange, then DutyRange, then the new bounds with PULSE
and DUTY for the unchanged angle (R79). -/
def runSetPulseRange (r : Regs) : CommandEnd :=
  if operandB r ≤ operandA r ∨ operandA r < 0 then .raise .invalidRange
  else
    match quant (operandB r) (ppuVal r) with
    | .error e => .fault e
    | .ok d =>
      if Config.dutyMax < d then .raise .dutyRange
      else commitPosition { r with pmin := word32 (operandA r), pmax := word32 (operandB r) }

/-- SET_PULSE_RANGE (R79). -/
def execSetPulseRange (s : State) : StepResult :=
  finishCommand (whenConfigured s.regs (runSetPulseRange s.regs)) s

/-- SET_ANGLE_RANGE(OPA, OPB) after the NotConfigured check: InvalidRange, then the new bounds, the clamped angle, and
PULSE and DUTY for it (R81). -/
def runSetAngleRange (r : Regs) : CommandEnd :=
  if operandB r ≤ operandA r then .raise .invalidRange
  else
    commitPosition
      { r with
        amin := word32 (operandA r), amax := word32 (operandB r),
        angle := word32 (clamp (sint32 r.angle) (operandA r) (operandB r)) }

/-- SET_ANGLE_RANGE (R81). -/
def execSetAngleRange (s : State) : StepResult :=
  finishCommand (whenConfigured s.regs (runSetAngleRange s.regs)) s

end Sys2Proof.Machine
end

