-- ==== Sys2Proof/Machine/Configuration.lean ====
section
/-! DEFINITION. The configuration command (41_configuration R77). -/

namespace Sys2Proof.Machine

/-- The registers CONFIG gives the new Actuator before its pulse and duty are computed (R77). -/
def configuredRegs (r : Regs) (ch f u : Int) : Regs :=
  { r with
    channel := BitVec.ofInt 4 ch, freq := word32 f, ppu := BitVec.ofInt 8 u,
    pmin := Config.defaultPulseMin, pmax := Config.defaultPulseMax,
    amin := Config.defaultAngleMin, amax := Config.defaultAngleMax,
    angle := Config.defaultAngleMin, configured := true }

/-- CONFIG(OPA, OPB): frequency checks, then the channel check, then the defaults (R77, R112). -/
def runConfig (r : Regs) : CommandEnd :=
  if operandB r ≤ 0 then .raise .invalidFrequency
  else
    match ppuOf (operandB r) with
    | .error e => .fault e
    | .ok u =>
      if u = 0 then .raise .invalidFrequency
      else if operandA r < 0 ∨ Config.channelMax < operandA r then .raise .indexOutOfRange
      else commitPosition (configuredRegs r (operandA r) (operandB r) u)

/-- CONFIG (R77). -/
def execConfig (s : State) : StepResult := finishCommand (runConfig s.regs) s

end Sys2Proof.Machine
end

