-- ==== Sys2Proof/Machine/Positioning.lean ====
section
/-! DEFINITION. The positioning command (43_positioning R83). -/

namespace Sys2Proof.Machine

/-- SET_ANGLE(OPA) after the NotConfigured check: OutOfRange, then the new angle with PULSE and DUTY for it (R83). -/
def runSetAngle (r : Regs) : CommandEnd :=
  if operandA r < sint32 r.amin ∨ sint32 r.amax < operandA r then .raise .outOfRange
  else commitPosition { r with angle := word32 (operandA r) }

/-- SET_ANGLE (R83). -/
def execSetAngle (s : State) : StepResult :=
  finishCommand (whenConfigured s.regs (runSetAngle s.regs)) s

end Sys2Proof.Machine
end

