-- ==== Sys2Proof/Machine/Dispatch.lean ====
section
/-! DEFINITION. One arm per instruction of the opcode table. -/

namespace Sys2Proof.Machine

open Sys2Proof

def exec (i : Instr) (s : State) : Host.Outcome State Fault Refusal :=
  match i with
  | .config => Sys2Proof.Machine.execConfig s
  | .setPulseRange => Sys2Proof.Machine.execSetPulseRange s
  | .setAngleRange => Sys2Proof.Machine.execSetAngleRange s
  | .setAngle => Sys2Proof.Machine.execSetAngle s
  | .wrOpa v => Sys2Proof.Machine.execWrOpa v s
  | .wrOpb v => Sys2Proof.Machine.execWrOpb v s
  | .rdOpa => Sys2Proof.Machine.execRdOpa s
  | .rdOpb => Sys2Proof.Machine.execRdOpb s
  | .rdStatus => Sys2Proof.Machine.execRdStatus s
  | .rdChannel => Sys2Proof.Machine.execRdChannel s
  | .rdFreq => Sys2Proof.Machine.execRdFreq s
  | .rdPpu => Sys2Proof.Machine.execRdPpu s
  | .rdPmin => Sys2Proof.Machine.execRdPmin s
  | .rdPmax => Sys2Proof.Machine.execRdPmax s
  | .rdAmin => Sys2Proof.Machine.execRdAmin s
  | .rdAmax => Sys2Proof.Machine.execRdAmax s
  | .rdAngle => Sys2Proof.Machine.execRdAngle s
  | .rdPulse => Sys2Proof.Machine.execRdPulse s
  | .rdDuty => Sys2Proof.Machine.execRdDuty s

end Sys2Proof.Machine
end

