-- ==== Sys2Proof/Machine/HostBus.lean ====
section
/-! DEFINITION. Performing one host step: an access, a reset, or an access that overlaps a reset (00_scope R4, 20_memory R40, 70_reset R124). -/

namespace Sys2Proof.Machine

/-- The IllegalCommand error of a CMD write (30_encoding R56, 60_exceptions R110). -/
def illegalCommand (s : State) : StepResult := finishCommand (.raise .illegalCommand) s

/-- One access, whole (R40, R45). -/
def performAccess (q : Request) (s : State) : StepResult :=
  match decode q with
  | .instr i => exec i s
  | .illegalCommand _ => illegalCommand s
  | .busError _ => answerBusError q s

/-- One host step. Where an access overlaps a reset, a free choice says whether it is performed: then it is this step and
the reset is the next one; otherwise this step is the reset (R124, 93 row 3, log entry 5). -/
def performHostStep (h : HostStep) (s : State) : StepResult :=
  match h with
  | .access q => performAccess q s
  | .reset => .next (applyReset s)
  | .resetDuring q =>
    if Config.overlapPerformed s.nFree then
      performAccess q { s with pending := .reset :: s.pending, nFree := s.nFree + 1 }
    else .next (applyReset { s with nFree := s.nFree + 1 })

/-- The oldest request of the host is performed (20_memory R47); with none there is no step (R4, log entry 2). -/
def performNext (s : State) : StepResult :=
  match s.pending with
  | [] => .refused .noHostStep
  | h :: rest => performHostStep h { s with pending := rest }

/-- The host requests a step before all others that wait. -/
def requestFirst (h : HostStep) (s : State) : State := { s with pending := h :: s.pending }

end Sys2Proof.Machine
end

