-- ==== Sys2Proof/Machine/Step.lean ====
section
/-! DEFINITION. One step of the block (00_scope R4), and how a table word becomes the next step. -/

namespace Sys2Proof.Machine

/-- One step: the host's oldest pending request. -/
def step (s : State) : Host.Outcome State Fault Refusal := performNext s

/-- The access that a table word stands for, requested as the very next step (log entries 1, 10).
A table word that stands for no access changes nothing. -/
def State.withFetchWord (s : State) (nbits w : Nat) : State :=
  match requestOfTableWord nbits w with
  | none => s
  | some q => requestFirst (.access q) s

end Sys2Proof.Machine
end

