-- ==== Sys2Proof/Machine/Ports.lean ====
section
/-! DEFINITION. The output ports: a pure function of the registers (10_state R33). -/

namespace Sys2Proof.Machine

structure Ports where
  outChannel     : BitVec 4
  outFrequencyHz : Word
  outDuty        : BitVec 12
  outValid       : Bool
  deriving DecidableEq, Repr

/-- The value column of R33. -/
def outputPorts (r : Regs) : Ports where
  outChannel := r.channel
  outFrequencyHz := r.freq
  outDuty := r.duty
  outValid := r.configured

end Sys2Proof.Machine
end

