-- ==== Sys2Proof/Machine/Asm.lean ====
section
/-! DEFINITION. The host-side assembly language on abstract syntax: literals, statements, expansion into accesses (30_encoding R62, R63).
No step of the block reads this file. -/

namespace Sys2Proof.Machine

/-- A decimal number `mant / 10 ^ places`, as written. -/
structure Decimal where
  mant   : Int
  places : Nat
  deriving DecidableEq, Repr

/-- A literal (R62): a plain integer, or a decimal in degrees, microseconds or milliseconds. -/
inductive Lit where
  | int (n : Int)
  | deg (d : Decimal)
  | us (d : Decimal)
  | ms (d : Decimal)
  deriving DecidableEq, Repr

/-- A statement: the two primitives (R62) and the pseudo-instructions (R63). The operands of CONFIG are plain integers. -/
inductive Stmt where
  | wr (reg : RegName) (lit : Lit)
  | rd (reg : RegName)
  | config (ch f : Int)
  | setPulseRange (lo hi : Lit)
  | setAngleRange (lo hi : Lit)
  | setAngle (a : Lit)
  | check
  deriving DecidableEq, Repr

/-- A plain integer in `[-2^31, 2^32 - 1]` gives its word; any other is refused (R62). -/
def assembleInt (n : Int) : Option Word :=
  if -2147483648 ≤ n ∧ n ≤ 4294967295 then some (word32 n) else none

/-- A scaled literal gives its raw word; one that is not an exact integer, or lies outside `[-2^31, 2^31 - 1]`, is
refused, never rounded (R62). -/
def assembleScaled (scale : Int) (d : Decimal) : Option Word :=
  if d.mant * scale % 10 ^ d.places = 0 ∧
      -2147483648 ≤ d.mant * scale / 10 ^ d.places ∧ d.mant * scale / 10 ^ d.places ≤ 2147483647 then
    some (word32 (d.mant * scale / 10 ^ d.places))
  else none

/-- The word a literal stands for (R62). -/
def assembleLit : Lit → Option Word
  | .int n => assembleInt n
  | .deg d => assembleScaled Config.angleScale d
  | .us d => assembleScaled Config.pulseScale d
  | .ms d => assembleScaled (1000 * Config.pulseScale) d

/-- `WR <reg>, <word>` (R62). -/
def wrReq (n : RegName) (v : Word) : Request := writeReq (offsetOf n) v

/-- `RD <reg>` (R62). -/
def rdReq (n : RegName) : Request := readReq (offsetOf n)

/-- Two operands, then a command word, in the required order OPA, OPB, CMD (R63, 70_reset R129). -/
def commandOfTwo (a b : Option Word) (w : Word) : Option (List Request) :=
  match a, b with
  | some a, some b => some [wrReq .opa a, wrReq .opb b, wrReq .cmd w]
  | _, _ => none

/-- The accesses of a statement, or none where the assembler refuses a literal (R62, R63). -/
def expandStmt : Stmt → Option (List Request)
  | .wr n l => (assembleLit l).map fun v => [wrReq n v]
  | .rd n => some [rdReq n]
  | .config ch f => commandOfTwo (assembleInt ch) (assembleInt f) 0x00000001#32
  | .setPulseRange lo hi => commandOfTwo (assembleLit lo) (assembleLit hi) 0x00000002#32
  | .setAngleRange lo hi => commandOfTwo (assembleLit lo) (assembleLit hi) 0x00000003#32
  | .setAngle a => (assembleLit a).map fun v => [wrReq .opa v, wrReq .cmd 0x00000004#32]
  | .check => some [rdReq .status]

end Sys2Proof.Machine
end

