-- ==== Sys2Proof/Machine/Units.lean ====
section
/-! DEFINITION. The host's conversions between register words and the source's units, as exact rationals (00_scope R9, R10, 44_accessors R85).
No step of the block reads this file. -/

namespace Sys2Proof.Machine

/-- Degrees of an angle word (R9, R85). -/
def degreesOf (w : Word) : ℚ := (sint32 w : ℚ) / 65536

/-- Microseconds of a pulse word (R9, R85). -/
def microsecondsOf (w : Word) : ℚ := (sint32 w : ℚ) / 1024

/-- Milliseconds of a pulse word (R10, R85). -/
def millisecondsOf (w : Word) : ℚ := (sint32 w : ℚ) / 1024000

/-- The number a decimal literal writes (R62). -/
def decimalValue (d : Decimal) : ℚ := (d.mant : ℚ) / 10 ^ d.places

end Sys2Proof.Machine
end

