-- ==== Sys2Proof/Safety.lean ====
section
/-! DEFINITION. The invariants of the block (10_state R30) and the legal error codes (60_exceptions R102): what a safe state is. -/

namespace Sys2Proof.Machine

/-- INV1 to INV8 (R30). -/
structure Regs.Inv (r : Regs) : Prop where
  /-- INV1. -/
  angleBounds : sint32 r.amin < sint32 r.amax
  /-- INV2. -/
  pulseBounds : 0 ≤ sint32 r.pmin ∧ sint32 r.pmin < sint32 r.pmax
  /-- INV3. -/
  angleInRange : sint32 r.amin ≤ sint32 r.angle ∧ sint32 r.angle ≤ sint32 r.amax
  /-- INV4. -/
  pulseFresh :
    interp (sint32 r.angle) (sint32 r.amin) (sint32 r.amax) (sint32 r.pmin) (sint32 r.pmax) = .ok (sint32 r.pulse)
  /-- INV5. -/
  dutyFresh : quant (sint32 r.pulse) (ppuVal r) = .ok (r.duty.toNat : Int)
  /-- INV6. -/
  freqLegal : 1 ≤ sint32 r.freq ∧ sint32 r.freq ≤ 244 ∧ ppuOf (sint32 r.freq) = .ok (ppuVal r)
  /-- INV7. -/
  dutyBound : ∃ d, quant (sint32 r.pmax) (ppuVal r) = .ok d ∧ d ≤ 4095
  /-- INV8. -/
  pulseInRange :
    (sint32 r.pmin ≤ sint32 r.pulse ∧ sint32 r.pulse ≤ sint32 r.pmax) ∧
      (0 ≤ (r.duty.toNat : Int) ∧ (r.duty.toNat : Int) ≤ 4095)

/-- STATUS.ERR holds a code the block writes: not InvalidPulse, and none of 9 to 15 (R102, R105). -/
def Regs.ErrLegal (r : Regs) : Prop := r.err ≠ 3#4 ∧ r.err ≤ 8#4

end Sys2Proof.Machine
end

