-- ==== Sys2Proof/Machine/AsmText.lean ====
section
/-! DEFINITION. One line of assembly text read into a statement (30_encoding R62, R63): one statement a line, `;` starts a comment.
What R62 leaves unsaid of the text (case, blanks, digits) is log entry 13. No step of the block reads this file. -/

namespace Sys2Proof.Machine

/-- The text before the comment. -/
def stripComment (line : List Char) : List Char := line.takeWhile (fun c => c != ';')

/-- Words and commas: blanks separate, and a comma is a token of its own. `cur` is the word being read, reversed. -/
def tokensFrom (cur : List Char) : List Char → List (List Char)
  | [] => if cur.isEmpty then [] else [cur.reverse]
  | c :: cs =>
    let done := if cur.isEmpty then [] else [cur.reverse]
    if c = ' ' ∨ c = '\t' ∨ c = '\r' then done ++ tokensFrom [] cs
    else if c = ',' then done ++ ([','] :: tokensFrom [] cs)
    else tokensFrom (c :: cur) cs

/-- The value of a decimal digit. -/
def decDigit (c : Char) : Option Nat :=
  if '0' ≤ c ∧ c ≤ '9' then some (c.toNat - 48) else none

/-- The value of a hexadecimal digit. -/
def hexDigit (c : Char) : Option Nat :=
  if '0' ≤ c ∧ c ≤ '9' then some (c.toNat - 48)
  else if 'a' ≤ c ∧ c ≤ 'f' then some (c.toNat - 87)
  else if 'A' ≤ c ∧ c ≤ 'F' then some (c.toNat - 55)
  else none

/-- Digits to a number, most significant first, `acc` read so far; none at a character that is no digit. -/
def digitsFrom (digit : Char → Option Nat) (base acc : Nat) : List Char → Option Nat
  | [] => some acc
  | c :: cs =>
    match digit c with
    | none => none
    | some d => digitsFrom digit base (acc * base + d) cs

/-- A non-empty run of digits. -/
def digits (digit : Char → Option Nat) (base : Nat) (cs : List Char) : Option Nat :=
  if cs.isEmpty then none else digitsFrom digit base 0 cs

/-- The sign of a number and the rest. -/
def signOf : List Char → Int × List Char
  | '-' :: cs => (-1, cs)
  | cs => (1, cs)

/-- A decimal or `0x` hex integer (R62). -/
def parseInt : List Char → Option Int
  | '0' :: 'x' :: cs => (digits hexDigit 16 cs).map Int.ofNat
  | cs => (digits decDigit 10 (signOf cs).2).map fun n => (signOf cs).1 * Int.ofNat n

/-- A decimal number with an optional fraction. -/
def parseDecimal (cs : List Char) : Option Decimal :=
  let body := (signOf cs).2
  let whole := body.takeWhile (fun c => c != '.')
  let fraction := (body.dropWhile (fun c => c != '.')).drop 1
  if body.contains '.' then
    match digits decDigit 10 whole, digits decDigit 10 fraction, digits decDigit 10 (whole ++ fraction) with
    | some _, some _, some n => some { mant := (signOf cs).1 * Int.ofNat n, places := fraction.length }
    | _, _, _ => none
  else (digits decDigit 10 whole).map fun n => { mant := (signOf cs).1 * Int.ofNat n, places := 0 }

/-- A literal: a scaled one by its suffix, else a plain integer (R62). -/
def parseLit (cs : List Char) : Option Lit :=
  match cs.reverse with
  | 'g' :: 'e' :: 'd' :: rest => (parseDecimal rest.reverse).map .deg
  | 's' :: 'u' :: rest => (parseDecimal rest.reverse).map .us
  | 's' :: 'm' :: rest => (parseDecimal rest.reverse).map .ms
  | _ => (parseInt cs).map .int

/-- A register name of the map (R36). -/
def parseReg : List Char → Option RegName
  | ['C', 'M', 'D'] => some .cmd
  | ['O', 'P', 'A'] => some .opa
  | ['O', 'P', 'B'] => some .opb
  | ['S', 'T', 'A', 'T', 'U', 'S'] => some .status
  | ['C', 'H', 'A', 'N', 'N', 'E', 'L'] => some .channel
  | ['F', 'R', 'E', 'Q'] => some .freq
  | ['P', 'P', 'U'] => some .ppu
  | ['P', 'M', 'I', 'N'] => some .pmin
  | ['P', 'M', 'A', 'X'] => some .pmax
  | ['A', 'M', 'I', 'N'] => some .amin
  | ['A', 'M', 'A', 'X'] => some .amax
  | ['A', 'N', 'G', 'L', 'E'] => some .angle
  | ['P', 'U', 'L', 'S', 'E'] => some .pulse
  | ['D', 'U', 'T', 'Y'] => some .duty
  | _ => none

/-- The mnemonics of statements (R62, R63). -/
inductive Mnemonic where
  | wr | rd | config | setPulseRange | setAngleRange | setAngle | check
  deriving DecidableEq, Repr

/-- A mnemonic as it is written (R62, R63). -/
def parseMnemonic : List Char → Option Mnemonic
  | ['W', 'R'] => some .wr
  | ['R', 'D'] => some .rd
  | ['C', 'O', 'N', 'F', 'I', 'G'] => some .config
  | ['S', 'E', 'T', '_', 'P', 'U', 'L', 'S', 'E', '_', 'R', 'A', 'N', 'G', 'E'] => some .setPulseRange
  | ['S', 'E', 'T', '_', 'A', 'N', 'G', 'L', 'E', '_', 'R', 'A', 'N', 'G', 'E'] => some .setAngleRange
  | ['S', 'E', 'T', '_', 'A', 'N', 'G', 'L', 'E'] => some .setAngle
  | ['C', 'H', 'E', 'C', 'K'] => some .check
  | _ => none

/-- Both results, if both are there. -/
def both {α β γ : Type} (f : α → β → γ) (a : Option α) (b : Option β) : Option γ :=
  match a, b with
  | some a, some b => some (f a b)
  | _, _ => none

/-- A statement from its mnemonic and the tokens after it. -/
def parseOperands (m : Mnemonic) (args : List (List Char)) : Option Stmt :=
  match m, args with
  | .wr, [reg, [','], lit] => both Stmt.wr (parseReg reg) (parseLit lit)
  | .rd, [reg] => (parseReg reg).map Stmt.rd
  | .config, [ch, [','], f] => both Stmt.config (parseInt ch) (parseInt f)
  | .setPulseRange, [lo, [','], hi] => both Stmt.setPulseRange (parseLit lo) (parseLit hi)
  | .setAngleRange, [lo, [','], hi] => both Stmt.setAngleRange (parseLit lo) (parseLit hi)
  | .setAngle, [a] => (parseLit a).map Stmt.setAngle
  | .check, [] => some Stmt.check
  | _, _ => none

/-- The accesses of one line: none for a blank or comment line, refused (`none`) where it is no statement or a literal is
refused (R62, R63). -/
def assembleLine (line : List Char) : Option (List Request) :=
  match tokensFrom [] (stripComment line) with
  | [] => some []
  | m :: args =>
    match parseMnemonic m with
    | none => none
    | some m =>
      match parseOperands m args with
      | none => none
      | some st => expandStmt st

end Sys2Proof.Machine
end

