-- ==== Sys2Proof/WellFormed.lean ====
section
/-! DEFINITION. Well-formedness before anything runs: of an access (20_memory R36 to R38, R41, R42) and of an assembler statement (30_encoding R62).
An `Instr` has no ill-formed value: its only operands are whole register words, which every encoding admits (R54, R61). -/

namespace Sys2Proof

open Sys2Proof.Machine

/-- All register names, in the order of the map (R36). -/
def allRegNames : List RegName :=
  [.cmd, .opa, .opb, .status, .channel, .freq, .ppu, .pmin, .pmax, .amin, .amax, .angle, .pulse, .duty]

/-- The register at an offset, if one is there (R36, R41). -/
def regAt (a : Offset) : Option RegName := allRegNames.find? (fun n => offsetOf n == a)

/-- Host access column of R36: every register but CMD can be read. -/
def hostReads : RegName → Bool
  | .cmd => false
  | .opa | .opb | .status | .channel | .freq | .ppu | .pmin | .pmax | .amin | .amax | .angle | .pulse | .duty => true

/-- Host access column of R36: CMD, OPA and OPB can be written. -/
def hostWrites : RegName → Bool
  | .cmd | .opa | .opb => true
  | .status | .channel | .freq | .ppu | .pmin | .pmax | .amin | .amax | .angle | .pulse | .duty => false

/-- The offset is mapped and the map allows the direction (R36, R41, R42). -/
def mapAllows (q : Request) : Bool :=
  match regAt q.addr with
  | none => false
  | some n =>
    match q.access with
    | .read => hostReads n
    | .write _ => hostWrites n

/-- A well-formed access: a whole aligned word that the map allows (R36 to R38, R41, R42). -/
def wellFormedRequest (q : Request) : Bool := isWholeWord q && isAligned q && mapAllows q

/-- A literal the assembler accepts (R62). -/
def wellFormedLit (l : Lit) : Bool := (assembleLit l).isSome

/-- A statement the assembler accepts (R62, R63). -/
def wellFormedStmt (s : Stmt) : Bool := (expandStmt s).isSome

end Sys2Proof
end

