-- ==== Sys2Proof/Certificates/Slice0/Obligations.lean ====
section
/-! DEFINITION. The statements for the provers, in the order of OBLIGATIONS.json. Each docstring names the rules of spec/ it formalises. -/

section
open Sys2Proof Sys2Proof.Machine

/-- The reset image, field by field (R34), and R34's second sentence: it is what a successful CONFIG with channel 0 and
frequency 40 leaves, except CONFIGURED and ERR. That this comparison leaves out OPA and OPB is the model's reading of the
sentence, not the spec's words (log entry 17, DEDUCED). -/
def Obligations.ResetImage : Prop :=
  State.reset.regs =
    { opa := 0x00000000#32, opb := 0x00000000#32, channel := 0x0#4, freq := 0x00000028#32, ppu := 0x06#8,
      pmin := 0x000FA000#32, pmax := 0x001F4000#32, amin := 0x00000000#32, amax := 0x00B40000#32,
      angle := 0x00000000#32, pulse := 0x000FA000#32, duty := 0x0A6#12, err := 0x0#4, configured := false } ∧
  ∀ s t : State, s.regs.opa = 0#32 → s.regs.opb = 40#32 → exec .config s = .next t →
    { t.regs with configured := false, opa := 0#32, opb := 0#32 } = State.reset.regs

/-- INV1 to INV8 hold in the reset state (R31, first half). -/
def Obligations.ResetSatisfiesInvariants : Prop := State.reset.regs.Inv

/-- Every step preserves INV1 to INV8, whatever CONFIGURED holds (R31). -/
def Obligations.StepKeepsInvariants : Prop :=
  ∀ s t : State, s.regs.Inv → step s = .next t → t.regs.Inv

/-- No step from a state that satisfies the invariants reaches InvalidPulse or any other fault (R68, R105, R75). The faults
`divisionDomain` and `dutyWidth` are the model's choices (log entries 7 and 8). -/
def Obligations.StepNeverFaults : Prop :=
  ∀ s : State, s.regs.Inv → ∀ f : Fault, step s ≠ .fault f

/-- STATUS.ERR never holds InvalidPulse's code 3 nor a code from 9 to 15: every step keeps that (R102, R105).
In a state that breaks the invariants and makes INTERP's check fire, that 3 is not written rests on the model's choice to
fault there, where R105 also says that the raise writes STATUS.ERR (log entry 6, DEDUCED). -/
def Obligations.StepKeepsErrorCodesLegal : Prop :=
  ∀ s t : State, s.regs.ErrLegal → step s = .next t → t.regs.ErrLegal

/-- CONFIGURED is cleared only by a reset and set only by a CONFIG that succeeds (R28). -/
def Obligations.ConfiguredChangesOnlyByConfigOrReset : Prop :=
  ∀ (s t : State) (q : Request) (rest : List HostStep), s.pending = .access q :: rest → step s = .next t →
    (s.regs.configured = true → t.regs.configured = true) ∧
    (s.regs.configured = false → (t.regs.configured = true ↔ decode q = .instr .config ∧ t.regs.err = 0#4))

/-- While CONFIGURED is 0 the registers other than OPA, OPB and ERR hold the reset image, and every step keeps that (R126). -/
def Obligations.UnconfiguredRegistersHoldTheResetImage : Prop :=
  ∀ s t : State,
    (s.regs.configured = false →
      s.regs = { Regs.reset with opa := s.regs.opa, opb := s.regs.opb, err := s.regs.err }) →
    step s = .next t →
    (t.regs.configured = false →
      t.regs = { Regs.reset with opa := t.regs.opa, opb := t.regs.opb, err := t.regs.err })

/-- An access decodes to an instruction exactly when it is that instruction's encoding: no bit of an encoding is dropped,
and every instruction has one access (R40, R55, R61). -/
def Obligations.DecodeAndEncodeAgree : Prop :=
  ∀ (q : Request) (i : Instr), decode q = .instr i ↔ q = encode i

/-- Words written out from the opcode table decode to their instructions, and neighbours decode to none (R55, R56, R61).
How a table word stands for an access is the model's choice (log entry 10). -/
def Obligations.TableWordsDecode : Prop :=
  decodeTableWord 32 0x00000001 = some .config ∧ decodeTableWord 32 0x00000004 = some .setAngle ∧
  decodeTableWord 32 0x00000005 = none ∧ decodeTableWord 32 0x00000011 = none ∧
  decodeTableWord 8 0b1000100 = some (.wrOpa 0#32) ∧ decodeTableWord 8 0b1001000 = some (.wrOpb 0#32) ∧
  decodeTableWord 8 0b0001100 = some .rdStatus ∧ decodeTableWord 8 0b0101100 = some .rdAngle ∧
  decodeTableWord 8 0b0110100 = some .rdDuty ∧ decodeTableWord 8 0b1001100 = none ∧ decodeTableWord 8 0b0111000 = none

/-- A step whose oldest request decodes to an instruction is `exec` of it on the state without that request. -/
def Obligations.StepRunsTheDecodedInstruction : Prop :=
  ∀ (s : State) (q : Request) (rest : List HostStep) (i : Instr), s.pending = .access q :: rest →
    decode q = .instr i → step s = exec i { s with pending := rest }

/-- With nothing requested there is no step, and nothing else is ever refused (R4; the refusal is log entry 2). -/
def Obligations.OnlyTheAbsenceOfARequestIsRefused : Prop :=
  ∀ s : State, (∃ r : Refusal, step s = .refused r) ↔ s.pending = []

/-- Under the invariants every access is performed in one step and gets exactly one response (R40, R45, R47).
Two clauses are the model's choices: a read with a byte lane disabled is `SLVERR` (log entry 9, DEDUCED), and a refused read
carries a word, of which nothing is known (log entry 4, DESIGN CHOICE). -/
def Obligations.EveryAccessIsAnsweredInOneStep : Prop :=
  ∀ (s : State) (q : Request) (rest : List HostStep), s.regs.Inv → s.pending = .access q :: rest →
    ∃ (t : State) (d : Option Word) (e : Resp), step s = .next t ∧ t.pending = rest ∧
      t.reply = some { resp := e, data := d } ∧
      (d.isSome = true ↔ q.access = .read) ∧ (e = .ok ↔ wellFormedRequest q = true)

/-- Partial, misaligned, unmapped accesses, writes to read-only registers and reads of CMD are answered `SLVERR` and
change no register (R111, R42, R40); the data of such a read may be anything (log entry 4). That a read with a byte lane
disabled is among them is the model's choice between R37 and R40 (log entry 9, DEDUCED). -/
def Obligations.BusErrorsChangeNoRegister : Prop :=
  ∀ (s : State) (q : Request) (rest : List HostStep), s.pending = .access q :: rest →
    (isWholeWord q = false ∨ isAligned q = false ∨ regAt q.addr = none ∨
      (∃ n, regAt q.addr = some n ∧ n ≠ .cmd ∧ n ≠ .opa ∧ n ≠ .opb ∧ q.access ≠ .read) ∨
      (regAt q.addr = some .cmd ∧ q.access = .read)) →
    ∃ (t : State) (d : Option Word), step s = .next t ∧ t.regs = s.regs ∧ t.pending = rest ∧
      t.reply = some { resp := .slverr, data := d }

/-- The checks of the access pseudocode refuse exactly what the register map's access column and the width and alignment
rules refuse (R36, R37, R38, R40, R41, R42). Lanes count on reads too, which is the model's choice (log entry 9, DEDUCED). -/
def Obligations.BusErrorsAreExactlyTheIllFormedAccesses : Prop :=
  ∀ q : Request, (∃ e : BusError, decode q = .busError e) ↔ wellFormedRequest q = false

/-- A whole-word write to CMD of any word but the four legal ones writes ERR 8, nothing else, and is answered `OK`, whether
or not the block is configured (R56, R110). -/
def Obligations.IllegalCommandWordsRaise : Prop :=
  ∀ (s : State) (w : Word) (rest : List HostStep),
    w ≠ 0x00000001#32 → w ≠ 0x00000002#32 → w ≠ 0x00000003#32 → w ≠ 0x00000004#32 →
    s.pending = .access (writeReq 0x00#6 w) :: rest →
    step s = .next { s with
      regs := { s.regs with err := 8#4 }, pending := rest, reply := some { resp := .ok, data := none } }

/-- PPU_OF: two truncations equal one, the bounds, the exact frequency limit, and the table of R65. -/
def Obligations.PeriodConstant : Prop :=
  (∀ f : Int, 1 ≤ f → ∃ u : Int, ppuOf f = .ok u ∧ u = 1000000 / f / 4096 ∧ u = 1000000 / (4096 * f) ∧
    0 ≤ 1000000 / f ∧ 1000000 / f ≤ 1000000 ∧ 0 ≤ u ∧ u ≤ 244 ∧ (1 ≤ u ↔ f ≤ 244)) ∧
  ppuOf 1 = .ok 244 ∧ ppuOf 2 = .ok 122 ∧ ppuOf 24 = .ok 10 ∧ ppuOf 40 = .ok 6 ∧ ppuOf 50 = .ok 4 ∧
  ppuOf 60 = .ok 4 ∧ ppuOf 100 = .ok 2 ∧ ppuOf 122 = .ok 2 ∧ ppuOf 123 = .ok 1 ∧ ppuOf 200 = .ok 1 ∧
  ppuOf 244 = .ok 1 ∧ ppuOf 245 = .ok 0

/-- QUANT: the greatest count whose pulse does not exceed `p`, equal to whole microseconds first and then counts, with
the bounds R66 states at its operands' ranges. -/
def Obligations.DutyQuantizerTruncates : Prop :=
  (∀ p u : Int, 0 ≤ p → 1 ≤ u → ∃ d : Int, quant p u = .ok d ∧
    d * (u * 1024) ≤ p ∧ p < (d + 1) * (u * 1024) ∧ d = p / 1024 / u ∧
    (u ≤ 244 → u * 1024 ≤ 249856) ∧ (p ≤ 2147483647 → d ≤ 2097151)) ∧
  quant 0x00177000 6 = .ok 250

/-- INTERP is the source's formula in exact rational arithmetic, truncated once (R72). -/
def Obligations.InterpolatorIsExactThenTruncated : Prop :=
  ∀ a amin amax pmin pmax : Int, amin < amax → amin ≤ a → a ≤ amax → 0 ≤ pmin → pmin < pmax →
    ∃ p : Int, interp a amin amax pmin pmax = .ok p ∧
      p = ⌊(pmin : ℚ) + (pmax - pmin) * (a - amin) / (amax - amin)⌋ ∧
      0 ≤ ((pmin : ℚ) + (pmax - pmin) * (a - amin) / (amax - amin)) - p ∧
      ((pmin : ℚ) + (pmax - pmin) * (a - amin) / (amax - amin)) - p < 1

/-- The endpoints of the interpolator are exact (R70). -/
def Obligations.InterpolatorEndpointsAreExact : Prop :=
  ∀ amin amax pmin pmax : Int, amin < amax → 0 ≤ pmin → pmin < pmax →
    interp amin amin amax pmin pmax = .ok pmin ∧ interp amax amin amax pmin pmax = .ok pmax

/-- The interpolator is non-decreasing, strictly increasing over steps that are long enough, and two angles can share a
pulse otherwise; the exact value before truncation is strictly increasing (R71). -/
def Obligations.InterpolatorIsMonotone : Prop :=
  (∀ a1 a2 amin amax pmin pmax : Int, amin < amax → 0 ≤ pmin → pmin < pmax → amin ≤ a1 → a1 ≤ a2 → a2 ≤ amax →
    ∃ p1 p2 : Int, interp a1 amin amax pmin pmax = .ok p1 ∧ interp a2 amin amax pmin pmax = .ok p2 ∧ p1 ≤ p2 ∧
      (amax - amin ≤ (pmax - pmin) * (a2 - a1) → p1 < p2) ∧
      (a1 < a2 → (pmin : ℚ) + (pmax - pmin) * (a1 - amin) / (amax - amin) <
        (pmin : ℚ) + (pmax - pmin) * (a2 - amin) / (amax - amin))) ∧
  ∃ a1 a2 amin amax pmin pmax p : Int, amin < amax ∧ 0 ≤ pmin ∧ pmin < pmax ∧ amin ≤ a1 ∧ a1 < a2 ∧ a2 ≤ amax ∧
    interp a1 amin amax pmin pmax = .ok p ∧ interp a2 amin amax pmin pmax = .ok p

/-- CLAMP goes to the bound that is crossed, which is the nearest value of the range (R69). -/
def Obligations.ClampGoesToTheNearerBound : Prop :=
  (∀ a lo hi : Int, lo < hi →
    (a < lo → clamp a lo hi = lo) ∧ (hi < a → clamp a lo hi = hi) ∧ (lo ≤ a → a ≤ hi → clamp a lo hi = a) ∧
    ∀ b : Int, lo ≤ b → b ≤ hi → |a - clamp a lo hi| ≤ |a - b|) ∧
  clamp 0x00AA0000 0 0x00A00000 = 0x00A00000

/-- QUANT is monotone, and every pulse in `[PMIN, PMAX]` quantizes into `[0, QUANT(PMAX, PPU)]`, inside `[0, 4095]`, so
that DUTY holds the exact count (R73). -/
def Obligations.DutyOfEveryPulseInRangeFits : Prop :=
  (∀ p1 p2 u d1 d2 : Int, p1 ≤ p2 → quant p1 u = .ok d1 → quant p2 u = .ok d2 → d1 ≤ d2) ∧
  ∀ (r : Regs) (p : Int), r.Inv → sint32 r.pmin ≤ p → p ≤ sint32 r.pmax →
    ∃ (d dmax : Int) (b : BitVec 12), quant p (ppuVal r) = .ok d ∧ quant (sint32 r.pmax) (ppuVal r) = .ok dmax ∧
      0 ≤ d ∧ d ≤ dmax ∧ dmax ≤ 4095 ∧ dutyBits d = .ok b ∧ (b.toNat : Int) = d

/-- The ranges of R75's table hold whenever a command of a state under the invariants runs its datapath: no operation
wraps and no divisor is zero. -/
def Obligations.DatapathRangesHold : Prop :=
  ∀ (r : Regs) (a : Int), r.Inv → sint32 r.amin ≤ a → a ≤ sint32 r.amax →
    (1 ≤ sint32 r.pmax - sint32 r.pmin ∧ sint32 r.pmax - sint32 r.pmin ≤ 2147483647) ∧
    (0 ≤ a - sint32 r.amin ∧ a - sint32 r.amin ≤ 4294967295) ∧
    (1 ≤ sint32 r.amax - sint32 r.amin ∧ sint32 r.amax - sint32 r.amin ≤ 4294967295) ∧
    (0 ≤ (sint32 r.pmax - sint32 r.pmin) * (a - sint32 r.amin) ∧
      (sint32 r.pmax - sint32 r.pmin) * (a - sint32 r.amin) < 2 ^ 63) ∧
    (1024 ≤ ppuVal r * 1024 ∧ ppuVal r * 1024 ≤ 249856)

/-- CONFIG with a legal frequency and channel completes from every state, configured or not, with the registers R77
gives. -/
def Obligations.ConfigCompletes : Prop :=
  ∀ s : State, 1 ≤ sint32 s.regs.opb → sint32 s.regs.opb ≤ 244 → 0 ≤ sint32 s.regs.opa → sint32 s.regs.opa ≤ 15 →
    exec .config s = .next { s with
      regs :=
        { opa := s.regs.opa, opb := s.regs.opb
          channel := s.regs.opa.extractLsb' 0 4
          freq := s.regs.opb
          ppu := BitVec.ofInt 8 (1000000 / sint32 s.regs.opb / 4096)
          pmin := 0x000FA000#32, pmax := 0x001F4000#32, amin := 0x00000000#32, amax := 0x00B40000#32
          angle := 0x00000000#32, pulse := 0x000FA000#32
          duty := BitVec.ofInt 12 (1000 / (1000000 / sint32 s.regs.opb / 4096))
          err := 0#4, configured := true }
      reply := some { resp := .ok, data := none } }

/-- CONFIG reports InvalidFrequency for `f <= 0` and `f >= 245`, whatever the channel, and IndexOutOfRange for a channel
outside 0 to 15 with a legal frequency; it writes only ERR (R106, R107, R77). -/
def Obligations.ConfigRejections : Prop :=
  ∀ s : State,
    ((sint32 s.regs.opb ≤ 0 ∨ 245 ≤ sint32 s.regs.opb) →
      exec .config s = .next { s with
        regs := { s.regs with err := 5#4 }, reply := some { resp := .ok, data := none } }) ∧
    (1 ≤ sint32 s.regs.opb → sint32 s.regs.opb ≤ 244 → (sint32 s.regs.opa < 0 ∨ 15 < sint32 s.regs.opa) →
      exec .config s = .next { s with
        regs := { s.regs with err := 4#4 }, reply := some { resp := .ok, data := none } })

/-- From every state, one that breaks the invariants included, CONFIG fails for no reason but its two operand checks, and a
successful one establishes INV1 to INV8 with an initial duty in `[4, 1000]` (R78). -/
def Obligations.SuccessfulConfigEstablishesInvariants : Prop :=
  ∀ s : State, ∃ t : State, exec .config s = .next t ∧
    (t.regs.err = 0#4 ∨ t.regs.err = 4#4 ∨ t.regs.err = 5#4) ∧
    (t.regs.err = 0#4 ↔
      1 ≤ sint32 s.regs.opb ∧ sint32 s.regs.opb ≤ 244 ∧ 0 ≤ sint32 s.regs.opa ∧ sint32 s.regs.opa ≤ 15) ∧
    (t.regs.err = 0#4 → t.regs.Inv ∧
      (t.regs.duty.toNat : Int) = 1000 / ppuVal t.regs ∧ 4 ≤ t.regs.duty.toNat ∧ t.regs.duty.toNat ≤ 1000 ∧
      1 ≤ ppuVal t.regs ∧ ppuVal t.regs ≤ 244 ∧
      quant 0x001F4000 (ppuVal t.regs) = .ok (2000 / ppuVal t.regs) ∧ 2000 / ppuVal t.regs ≤ 2000)

/-- SET_PULSE_RANGE completes on every legal pair of bounds, up to the largest legal one, with the registers R79 gives:
the angle and its range stay, PULSE and DUTY are computed anew. -/
def Obligations.SetPulseRangeCompletes : Prop :=
  ∀ s : State, s.regs.Inv → s.regs.configured = true →
    0 ≤ sint32 s.regs.opa → sint32 s.regs.opa < sint32 s.regs.opb →
    sint32 s.regs.opb ≤ 4096 * ppuVal s.regs * 1024 - 1 →
    ∀ p : Int,
      p = sint32 s.regs.opa + (sint32 s.regs.opb - sint32 s.regs.opa) * (sint32 s.regs.angle - sint32 s.regs.amin) /
        (sint32 s.regs.amax - sint32 s.regs.amin) →
      exec .setPulseRange s = .next { s with
        regs := { s.regs with
          pmin := s.regs.opa, pmax := s.regs.opb, pulse := word32 p
          duty := BitVec.ofInt 12 (p / (ppuVal s.regs * 1024)), err := 0#4 }
        reply := some { resp := .ok, data := none } }

/-- SET_PULSE_RANGE reports InvalidRange for `lo >= hi` or `lo < 0`, whatever `hi`, and DutyRange for a larger `hi` than
12 bits of duty allow; it writes only ERR (R79, R103, R108, R112). -/
def Obligations.SetPulseRangeRejections : Prop :=
  ∀ s : State, s.regs.configured = true →
    ((sint32 s.regs.opb ≤ sint32 s.regs.opa ∨ sint32 s.regs.opa < 0) →
      exec .setPulseRange s = .next { s with
        regs := { s.regs with err := 1#4 }, reply := some { resp := .ok, data := none } }) ∧
    (s.regs.Inv → 0 ≤ sint32 s.regs.opa → sint32 s.regs.opa < sint32 s.regs.opb →
      4096 * ppuVal s.regs * 1024 ≤ sint32 s.regs.opb →
      exec .setPulseRange s = .next { s with
        regs := { s.regs with err := 6#4 }, reply := some { resp := .ok, data := none } })

/-- SET_ANGLE_RANGE completes on every `lo < hi`, with the registers R81 gives: the angle is clamped, the pulse range
stays, PULSE and DUTY are computed anew. -/
def Obligations.SetAngleRangeCompletes : Prop :=
  ∀ s : State, s.regs.Inv → s.regs.configured = true → sint32 s.regs.opa < sint32 s.regs.opb →
    ∀ a p : Int,
      a = (if sint32 s.regs.angle < sint32 s.regs.opa then sint32 s.regs.opa
        else if sint32 s.regs.opb < sint32 s.regs.angle then sint32 s.regs.opb else sint32 s.regs.angle) →
      p = sint32 s.regs.pmin + (sint32 s.regs.pmax - sint32 s.regs.pmin) * (a - sint32 s.regs.opa) /
        (sint32 s.regs.opb - sint32 s.regs.opa) →
      exec .setAngleRange s = .next { s with
        regs := { s.regs with
          amin := s.regs.opa, amax := s.regs.opb, angle := word32 a, pulse := word32 p
          duty := BitVec.ofInt 12 (p / (ppuVal s.regs * 1024)), err := 0#4 }
        reply := some { resp := .ok, data := none } }

/-- SET_ANGLE_RANGE reports InvalidRange for `lo >= hi`, from every configured state, and writes only ERR (R81, R103). -/
def Obligations.SetAngleRangeRejections : Prop :=
  ∀ s : State, s.regs.configured = true → sint32 s.regs.opb ≤ sint32 s.regs.opa →
    exec .setAngleRange s = .next { s with
      regs := { s.regs with err := 1#4 }, reply := some { resp := .ok, data := none } }

/-- An angle outside the new range goes to the crossed bound and PULSE to that end of the pulse range, exactly; an angle
inside keeps its word (R81, R70). -/
def Obligations.SetAngleRangeClampsToExactEndpoints : Prop :=
  ∀ s : State, s.regs.Inv → s.regs.configured = true → sint32 s.regs.opa < sint32 s.regs.opb →
    ∃ t : State, exec .setAngleRange s = .next t ∧
      (sint32 s.regs.angle < sint32 s.regs.opa → t.regs.angle = s.regs.opa ∧ t.regs.pulse = s.regs.pmin) ∧
      (sint32 s.regs.opb < sint32 s.regs.angle → t.regs.angle = s.regs.opb ∧ t.regs.pulse = s.regs.pmax) ∧
      (sint32 s.regs.opa ≤ sint32 s.regs.angle → sint32 s.regs.angle ≤ sint32 s.regs.opb →
        t.regs.angle = s.regs.angle)

/-- SET_ANGLE completes on every angle of the range, bounds included, with the registers R83 gives. -/
def Obligations.SetAngleCompletes : Prop :=
  ∀ s : State, s.regs.Inv → s.regs.configured = true →
    sint32 s.regs.amin ≤ sint32 s.regs.opa → sint32 s.regs.opa ≤ sint32 s.regs.amax →
    ∀ p : Int,
      p = sint32 s.regs.pmin + (sint32 s.regs.pmax - sint32 s.regs.pmin) * (sint32 s.regs.opa - sint32 s.regs.amin) /
        (sint32 s.regs.amax - sint32 s.regs.amin) →
      exec .setAngle s = .next { s with
        regs := { s.regs with
          angle := s.regs.opa, pulse := word32 p
          duty := BitVec.ofInt 12 (p / (ppuVal s.regs * 1024)), err := 0#4 }
        reply := some { resp := .ok, data := none } }

/-- SET_ANGLE reports OutOfRange for an angle outside `[AMIN, AMAX]`, from every configured state, and writes only ERR
(R83, R104). -/
def Obligations.SetAngleRejections : Prop :=
  ∀ s : State, s.regs.configured = true →
    (sint32 s.regs.opa < sint32 s.regs.amin ∨ sint32 s.regs.amax < sint32 s.regs.opa) →
    exec .setAngle s = .next { s with
      regs := { s.regs with err := 2#4 }, reply := some { resp := .ok, data := none } }

/-- SET_ANGLE at AMIN gives PULSE = PMIN exactly, and at AMAX gives PULSE = PMAX exactly (R83, R70). -/
def Obligations.SetAngleAtTheBoundsIsExact : Prop :=
  ∀ s : State, s.regs.Inv → s.regs.configured = true →
    (s.regs.opa = s.regs.amin → ∃ t : State, exec .setAngle s = .next t ∧ t.regs.angle = s.regs.amin ∧
      t.regs.pulse = s.regs.pmin ∧ t.regs.err = 0#4) ∧
    (s.regs.opa = s.regs.amax → ∃ t : State, exec .setAngle s = .next t ∧ t.regs.angle = s.regs.amax ∧
      t.regs.pulse = s.regs.pmax ∧ t.regs.err = 0#4)

/-- SET_ANGLE does not read OPB: two states that differ only in OPB give states that differ only in OPB (R60). -/
def Obligations.SetAngleDoesNotReadOpb : Prop :=
  ∀ (s t : State) (v : Word), exec .setAngle s = .next t →
    exec .setAngle { s with regs := { s.regs with opb := v } } = .next { t with regs := { t.regs with opb := v } }

/-- While CONFIGURED is 0 the three other commands raise NotConfigured on any operands and write only ERR (R109). -/
def Obligations.UnconfiguredCommandsRaiseNotConfigured : Prop :=
  ∀ (s : State) (i : Instr), s.regs.configured = false →
    (i = .setPulseRange ∨ i = .setAngleRange ∨ i = .setAngle) →
    exec i s = .next { s with
      regs := { s.regs with err := 7#4 }, reply := some { resp := .ok, data := none } }

/-- The code every CMD write leaves, by the priority order of R112, under the invariants: the first failing check of the
list is the one reported, InvalidPulse never. A partial-width CMD write, and every other bus error, reports none. -/
def Obligations.FirstFailingCheckIsReported : Prop :=
  ∀ (s : State) (q : Request) (rest : List HostStep), s.regs.Inv → s.pending = .access q :: rest →
    ∃ t : State, step s = .next t ∧
      (wellFormedRequest q = false → t.regs.err = s.regs.err) ∧
      (∀ w : Word, wellFormedRequest q = true → q.addr = 0x00#6 → q.access = .write w →
        t.regs.err =
          (if ¬ (1 ≤ w.toNat ∧ w.toNat ≤ 4) then 8#4
          else if w ≠ 1#32 ∧ s.regs.configured = false then 7#4
          else if w = 1#32 then
            (if sint32 s.regs.opb ≤ 0 then 5#4
            else if 245 ≤ sint32 s.regs.opb then 5#4
            else if sint32 s.regs.opa < 0 ∨ 15 < sint32 s.regs.opa then 4#4 else 0#4)
          else if w = 2#32 then
            (if sint32 s.regs.opb ≤ sint32 s.regs.opa ∨ sint32 s.regs.opa < 0 then 1#4
            else if 4095 < sint32 s.regs.opb / (ppuVal s.regs * 1024) then 6#4 else 0#4)
          else if w = 3#32 then
            (if sint32 s.regs.opb ≤ sint32 s.regs.opa then 1#4 else 0#4)
          else
            (if sint32 s.regs.opa < sint32 s.regs.amin ∨ sint32 s.regs.amax < sint32 s.regs.opa then 2#4 else 0#4)))

/-- The state after a raising command is the state before it apart from STATUS.ERR: any access to CMD after which ERR is
not 0 has changed no other register, an illegal word and a refused access included (R113, R74). -/
def Obligations.RaisingCommandsWriteOnlyErr : Prop :=
  ∀ (s t : State) (q : Request) (rest : List HostStep), s.pending = .access q :: rest → q.addr = 0x00#6 →
    step s = .next t → t.regs.err ≠ 0#4 → t.regs = { s.regs with err := t.regs.err }

/-- The frame of the four commands, from every state: the operands, the pending requests and the free values never change, CONFIG
alone writes CHANNEL, FREQ, PPU and CONFIGURED, and each other command keeps the registers its rule does not name
(R12, R77, R79, R81, R83). -/
def Obligations.CommandFrames : Prop :=
  ∀ s t : State,
    (∀ i : Instr, (i = .config ∨ i = .setPulseRange ∨ i = .setAngleRange ∨ i = .setAngle) → exec i s = .next t →
      t.regs.opa = s.regs.opa ∧ t.regs.opb = s.regs.opb ∧ t.pending = s.pending ∧ t.nFree = s.nFree) ∧
    (exec .setPulseRange s = .next t →
      t.regs = { s.regs with
        pmin := t.regs.pmin, pmax := t.regs.pmax, pulse := t.regs.pulse, duty := t.regs.duty, err := t.regs.err }) ∧
    (exec .setAngleRange s = .next t →
      t.regs = { s.regs with
        amin := t.regs.amin, amax := t.regs.amax, angle := t.regs.angle, pulse := t.regs.pulse, duty := t.regs.duty
        err := t.regs.err }) ∧
    (exec .setAngle s = .next t →
      t.regs = { s.regs with
        angle := t.regs.angle, pulse := t.regs.pulse, duty := t.regs.duty, err := t.regs.err })

/-- Every read instruction completes from every state with the register it names, zero-extended where it is narrow, and
changes no register (R86 to R96, R99, R100). -/
def Obligations.ReadsReturnTheirRegister : Prop :=
  ∀ s : State,
    let ans := fun w : Word =>
      (Host.Outcome.next { s with reply := some { resp := .ok, data := some w } } : Host.Outcome State Fault Refusal)
    exec .rdOpa s = ans s.regs.opa ∧ exec .rdOpb s = ans s.regs.opb ∧
    exec .rdStatus s = ans (0#27 ++ (BitVec.ofBool s.regs.configured ++ s.regs.err)) ∧
    exec .rdChannel s = ans (s.regs.channel.setWidth 32) ∧ exec .rdFreq s = ans s.regs.freq ∧
    exec .rdPpu s = ans (s.regs.ppu.setWidth 32) ∧ exec .rdPmin s = ans s.regs.pmin ∧
    exec .rdPmax s = ans s.regs.pmax ∧ exec .rdAmin s = ans s.regs.amin ∧ exec .rdAmax s = ans s.regs.amax ∧
    exec .rdAngle s = ans s.regs.angle ∧ exec .rdPulse s = ans s.regs.pulse ∧
    exec .rdDuty s = ans (s.regs.duty.setWidth 32)

/-- Reads have no side effect: one answered `OK` returns the value of the register at its offset, and none, `OK` or not,
changes a register, so that repeating it in any order gives the same word (R43). -/
def Obligations.ReadsHaveNoSideEffects : Prop :=
  ∀ (s t : State) (q : Request) (rest : List HostStep), s.pending = .access q :: rest → q.access = .read →
    step s = .next t →
    t.regs = s.regs ∧ t.pending = rest ∧
    ∀ d : Option Word, t.reply = some { resp := .ok, data := d } →
      ∃ (n : RegName) (w : Word), regAt q.addr = some n ∧ readValue s.regs n = some w ∧ d = some w

/-- STATUS: ERR in bits 3:0, CONFIGURED in bit 4, zeros above (R26, R96). -/
def Obligations.StatusLayout : Prop :=
  ∀ r : Regs, (statusWord r).extractLsb' 0 4 = r.err ∧ (statusWord r).getLsbD 4 = r.configured ∧
    ∀ k : Nat, 5 ≤ k → (statusWord r).getLsbD k = false

/-- The operand writes complete from every state on every word: the word is stored whole, nothing else changes (R97, R98). -/
def Obligations.OperandWritesStoreTheWord : Prop :=
  ∀ (s : State) (v : Word),
    exec (.wrOpa v) s = .next { s with
      regs := { s.regs with opa := v }, reply := some { resp := .ok, data := none } } ∧
    exec (.wrOpb v) s = .next { s with
      regs := { s.regs with opb := v }, reply := some { resp := .ok, data := none } }

/-- What an operand write stored is read back, at once or after any one command (R13, R14, R99, R100). -/
def Obligations.OperandsReadBackAcrossACommand : Prop :=
  ∀ (s a b c : State) (v : Word) (i : Instr),
    (i = .config ∨ i = .setPulseRange ∨ i = .setAngleRange ∨ i = .setAngle) →
    (exec (.wrOpa v) s = .next a → exec i a = .next b → exec .rdOpa b = .next c →
      c.reply = some { resp := .ok, data := some v }) ∧
    (exec (.wrOpb v) s = .next a → exec i a = .next b → exec .rdOpb b = .next c →
      c.reply = some { resp := .ok, data := some v })

/-- The same write performed twice back to back leaves the state one leaves: for each command, success or failure, and for
the operand writes (R44). -/
def Obligations.BackToBackWritesAreIdempotent : Prop :=
  ∀ (s t : State) (i : Instr),
    (i = .config ∨ i = .setPulseRange ∨ i = .setAngleRange ∨ i = .setAngle ∨
      (∃ v, i = .wrOpa v) ∨ (∃ v, i = .wrOpb v)) →
    exec i s = .next t → exec i t = .next t

/-- SET_PULSE_RANGE and SET_ANGLE_RANGE commute: if they succeed in one order they succeed in the other, with the same
registers but for the operands that stand in OPA and OPB (R128). -/
def Obligations.RangeCommandsCommute : Prop :=
  ∀ (s a b c : State) (plo phi alo ahi : Word), s.regs.Inv → s.regs.configured = true →
    (exec .setPulseRange { s with regs := { s.regs with opa := plo, opb := phi } } = .next a → a.regs.err = 0#4 →
      exec .setAngleRange { a with regs := { a.regs with opa := alo, opb := ahi } } = .next b → b.regs.err = 0#4 →
      ∃ c' d : State, exec .setAngleRange { s with regs := { s.regs with opa := alo, opb := ahi } } = .next c' ∧
        c'.regs.err = 0#4 ∧
        exec .setPulseRange { c' with regs := { c'.regs with opa := plo, opb := phi } } = .next d ∧
        d.regs = { b.regs with opa := plo, opb := phi }) ∧
    (exec .setAngleRange { s with regs := { s.regs with opa := alo, opb := ahi } } = .next a → a.regs.err = 0#4 →
      exec .setPulseRange { a with regs := { a.regs with opa := plo, opb := phi } } = .next c → c.regs.err = 0#4 →
      ∃ b' d : State, exec .setPulseRange { s with regs := { s.regs with opa := plo, opb := phi } } = .next b' ∧
        b'.regs.err = 0#4 ∧
        exec .setAngleRange { b' with regs := { b'.regs with opa := alo, opb := ahi } } = .next d ∧
        d.regs = { c.regs with opa := alo, opb := ahi })

/-- The first boot step: writing a legal channel and frequency, then CONFIG, then reading STATUS answers 0x00000010 from
every state, in the order the host requested (R127 step 1, R63, R47). -/
def Obligations.BootSequenceReadsConfigured : Prop :=
  ∀ (s : State) (ch f : Word) (rest : List HostStep),
    0 ≤ sint32 ch → sint32 ch ≤ 15 → 1 ≤ sint32 f → sint32 f ≤ 244 →
    s.pending = .access (wrReq .opa ch) :: .access (wrReq .opb f) :: .access (wrReq .cmd 1#32) ::
      .access (rdReq .status) :: rest →
    ∃ t : State, Host.Core.run Sys2Proof.core 4 s = .next t ∧ t.pending = rest ∧
      t.reply = some { resp := .ok, data := some 0x00000010#32 } ∧ t.regs.Inv

/-- A reset step sets every register to its reset value in any state, keeps the requests that follow, and leaves the ports
at the reset values with `out_valid` 0 (R124, R126, R33). That the requests behind the reset wait on is the model's choice,
drawn from R125 (log entry 11, DEDUCED). -/
def Obligations.ResetStepLoadsTheImage : Prop :=
  ∀ (s : State) (rest : List HostStep), s.pending = .reset :: rest →
    ∃ t : State, step s = .next t ∧ t.regs = Regs.reset ∧ t.pending = rest ∧
      t.regs.configured = false ∧ t.regs.err = 0#4 ∧
      outputPorts t.regs = { outChannel := 0#4, outFrequencyHz := 40#32, outDuty := 166#12, outValid := false }

/-- An access that overlaps a reset is performed wholly before it, with the reset as the next step, or not at all
(R124; the choice is free, log entry 5). That the reset empties the reply and keeps the requests behind it is the model's
choice (log entry 11, DEDUCED). -/
def Obligations.OverlappedAccessIsWholeOrAbsent : Prop :=
  ∀ (s : State) (q : Request) (rest : List HostStep), s.pending = .resetDuring q :: rest →
    (step s = .next { s with regs := Regs.reset, pending := rest, reply := none, nFree := s.nFree + 1 }) ∨
    (∃ s' : State, s'.regs = s.regs ∧ s'.pending = .access q :: .reset :: rest ∧ step s = step s' ∧
      ∀ t : State, step s = .next t → t.pending = .reset :: rest)

/-- After a reset, and before any CONFIG, a range or angle command finds the block unconfigured: ERR becomes 7 and every
other register keeps its reset value (R126, R109). That the request behind the reset is kept is the model's choice (log entry 11,
DEDUCED). -/
def Obligations.AfterResetCommandsAreNotConfigured : Prop :=
  ∀ (s : State) (w : Word) (rest : List HostStep), (w = 2#32 ∨ w = 3#32 ∨ w = 4#32) →
    s.pending = .reset :: .access (wrReq .cmd w) :: rest →
    ∃ t : State, Host.Core.run Sys2Proof.core 2 s = .next t ∧ t.regs = { Regs.reset with err := 7#4 } ∧
      t.pending = rest ∧ t.reply = some { resp := .ok, data := none }

/-- What an access does to the registers depends on the registers and the access alone: not on the earlier response, the
free values, or the requests behind it (R15, R40, R47). -/
def Obligations.RegistersDependOnRegistersAndAccessOnly : Prop :=
  ∀ (s s' t : State) (q : Request) (rest rest' : List HostStep), s.regs = s'.regs →
    s.pending = .access q :: rest → s'.pending = .access q :: rest' → step s = .next t →
    ∃ t' : State, step s' = .next t' ∧ t'.regs = t.regs

/-- Byte lane `k` is register bits `[8k+7 : 8k]`, little-endian, and the four lanes are the word (R39). -/
def Obligations.ByteLanesAreLittleEndian : Prop :=
  ∀ w : Word, wordOfLanes (laneByte w 0) (laneByte w 1) (laneByte w 2) (laneByte w 3) = w ∧
    ∀ (a : Offset) (k : Fin 4), (hostByte a w k).1 = Config.base + a.toNat + k.val ∧
      ∀ j : Nat, j < 8 → (hostByte a w k).2.getLsbD j = w.getLsbD (8 * k.val + j)

/-- The assembler never rounds: a scaled literal it accepts stands for exactly the number written, and it refuses exactly
those that are off the grid or outside the signed 32-bit range (R62). -/
def Obligations.AssemblerNeverRounds : Prop :=
  ∀ d : Decimal,
    (∀ w, assembleLit (.deg d) = some w → degreesOf w = decimalValue d) ∧
    (∀ w, assembleLit (.us d) = some w → microsecondsOf w = decimalValue d) ∧
    (∀ w, assembleLit (.ms d) = some w → millisecondsOf w = decimalValue d) ∧
    (assembleLit (.deg d) = none ↔
      ¬ ∃ n : Int, (n : ℚ) = decimalValue d * 65536 ∧ -2147483648 ≤ n ∧ n ≤ 2147483647) ∧
    (assembleLit (.us d) = none ↔
      ¬ ∃ n : Int, (n : ℚ) = decimalValue d * 1024 ∧ -2147483648 ≤ n ∧ n ≤ 2147483647) ∧
    (assembleLit (.ms d) = none ↔
      ¬ ∃ n : Int, (n : ℚ) = decimalValue d * 1024000 ∧ -2147483648 ≤ n ∧ n ≤ 2147483647)

/-- The worked literal conversions of R64. -/
def Obligations.WorkedLiterals : Prop :=
  assembleLit (.deg { mant := 90, places := 0 }) = some 0x005A0000#32 ∧
  assembleLit (.deg { mant := 180, places := 0 }) = some 0x00B40000#32 ∧
  assembleLit (.deg { mant := -90, places := 0 }) = some 0xFFA60000#32 ∧
  assembleLit (.deg { mant := 5, places := 1 }) = some 0x00008000#32 ∧
  assembleLit (.ms { mant := 15, places := 1 }) = some 0x00177000#32 ∧
  assembleLit (.us { mant := 1000, places := 0 }) = some 0x000FA000#32 ∧
  assembleLit (.ms { mant := 25, places := 1 }) = some 0x00271000#32 ∧
  assembleLit (.deg { mant := 1, places := 4 }) = none ∧
  assembleLit (.int (-1)) = some 0xFFFFFFFF#32

/-- The pseudo-instructions expand to operand writes in the order OPA, OPB, CMD and the command word of the table
(R63, R55). -/
def Obligations.PseudoInstructionsExpandInOrder : Prop :=
  (∀ (ch f : Int) (a b : Word), assembleLit (.int ch) = some a → assembleLit (.int f) = some b →
    expandStmt (.config ch f) = some [wrReq .opa a, wrReq .opb b, wrReq .cmd 0x00000001#32]) ∧
  (∀ (lo hi : Lit) (a b : Word), assembleLit lo = some a → assembleLit hi = some b →
    expandStmt (.setPulseRange lo hi) = some [wrReq .opa a, wrReq .opb b, wrReq .cmd 0x00000002#32] ∧
    expandStmt (.setAngleRange lo hi) = some [wrReq .opa a, wrReq .opb b, wrReq .cmd 0x00000003#32]) ∧
  (∀ (l : Lit) (a : Word), assembleLit l = some a →
    expandStmt (.setAngle l) = some [wrReq .opa a, wrReq .cmd 0x00000004#32]) ∧
  expandStmt .check = some [rdReq .status]

end
end

