-- ==== Sys2Proof/Laws/Datapath.lean ====
section
/-! SUPPORT. What the word readings and the datapath functions can answer, once each. -/

namespace Sys2Proof.Machine

theorem sint32_bounds (w : Word) : -2147483648 ≤ sint32 w ∧ sint32 w ≤ 2147483647 := by
  have h1 := BitVec.le_toInt w
  have h2 := BitVec.toInt_lt (x := w)
  simp only [sint32]
  omega

@[simp] theorem word32_sint32 (w : Word) : word32 (sint32 w) = w := BitVec.ofInt_toInt

theorem sint32_word32 {n : Int} (h1 : -2147483648 ≤ n) (h2 : n ≤ 2147483647) : sint32 (word32 n) = n := by
  have := BitVec.toInt_ofInt_eq_self (w := 32) (n := n) (by decide) (by simpa using h1) (by simp; omega)
  exact this

theorem sint32_inj {v w : Word} (h : sint32 v = sint32 w) : v = w := BitVec.toInt_inj.mp h

@[simp] theorem sint32_defaultPulseMin : sint32 Config.defaultPulseMin = 1024000 := by decide

@[simp] theorem sint32_defaultPulseMax : sint32 Config.defaultPulseMax = 2048000 := by decide

@[simp] theorem sint32_defaultAngleMin : sint32 Config.defaultAngleMin = 0 := by decide

@[simp] theorem sint32_defaultAngleMax : sint32 Config.defaultAngleMax = 11796480 := by decide

/-- `floorDiv` answers exactly on the domain of R8, and then the Euclidean quotient. -/
theorem floorDiv_ok_iff {a b q : Int} : floorDiv a b = .ok q ↔ 0 ≤ a ∧ 0 < b ∧ q = a / b := by
  unfold floorDiv
  split <;> rename_i h
  · simp [h.1, h.2, eq_comm]
  · simp only [reduceCtorEq, false_iff]
    exact fun h' => h ⟨h'.1, h'.2.1⟩

theorem floorDiv_eq {a b : Int} (ha : 0 ≤ a) (hb : 0 < b) : floorDiv a b = .ok (a / b) :=
  floorDiv_ok_iff.mpr ⟨ha, hb, rfl⟩

theorem ppuOf_eq {f : Int} (hf : 1 ≤ f) : ppuOf f = .ok (1000000 / f / 4096) := by
  have h : 0 ≤ (1000000 : Int) / f := Int.ediv_nonneg (by decide) (by omega)
  simp [ppuOf, Config.usPerS, Config.counterSteps, floorDiv_eq (a := 1000000) (b := f) (by decide) (by omega),
    floorDiv_eq h (b := 4096) (by decide)]

theorem quant_ok_iff {p u d : Int} : quant p u = .ok d ↔ 0 ≤ p ∧ 0 < u ∧ d = p / (u * 1024) := by
  rw [quant, Config.pulseScale, floorDiv_ok_iff]
  constructor <;> rintro ⟨h1, h2, h3⟩ <;> refine ⟨h1, by omega, h3⟩

/-- `interp` answers exactly where its division is defined and its result lies in the pulse range. -/
theorem interp_ok_iff {a amin amax pmin pmax p : Int} :
    interp a amin amax pmin pmax = .ok p ↔
      0 ≤ (pmax - pmin) * (a - amin) ∧ amin < amax ∧
        p = pmin + (pmax - pmin) * (a - amin) / (amax - amin) ∧ pmin ≤ p ∧ p ≤ pmax := by
  unfold interp
  split <;> rename_i h
  · simp only [reduceCtorEq, false_iff]
    rintro ⟨h1, h2, -⟩
    rw [floorDiv_eq h1 (by omega)] at h
    cases h
  · obtain ⟨h1, h2, rfl⟩ := floorDiv_ok_iff.mp h
    split
    · simp only [reduceCtorEq, false_iff]
      rintro ⟨-, -, rfl, h4, h5⟩
      omega
    · rename_i h3
      simp only [Except.ok.injEq]
      constructor
      · rintro rfl
        exact ⟨h1, by omega, rfl, by omega, by omega⟩
      · rintro ⟨-, -, rfl, -⟩
        rfl

/-- The quotient of the interpolator never leaves `[0, pmax - pmin]` under the preconditions of R67. -/
theorem interp_quotient_bounds {a amin amax pmin pmax : Int} (ha : amin < amax) (h1 : amin ≤ a) (h2 : a ≤ amax)
    (hp : pmin < pmax) :
    0 ≤ (pmax - pmin) * (a - amin) ∧ 0 ≤ (pmax - pmin) * (a - amin) / (amax - amin) ∧
      (pmax - pmin) * (a - amin) / (amax - amin) ≤ pmax - pmin := by
  have hnum : 0 ≤ (pmax - pmin) * (a - amin) := mul_nonneg (by omega) (by omega)
  refine ⟨hnum, Int.ediv_nonneg hnum (by omega), ?_⟩
  have hle : (pmax - pmin) * (a - amin) ≤ (pmax - pmin) * (amax - amin) :=
    mul_le_mul_of_nonneg_left (by omega) (by omega)
  calc (pmax - pmin) * (a - amin) / (amax - amin)
      ≤ (pmax - pmin) * (amax - amin) / (amax - amin) := Int.ediv_le_ediv (by omega) hle
    _ = pmax - pmin := Int.mul_ediv_cancel _ (by omega)

theorem interp_eq {a amin amax pmin pmax : Int} (ha : amin < amax) (h1 : amin ≤ a) (h2 : a ≤ amax)
    (hp : pmin < pmax) :
    interp a amin amax pmin pmax = .ok (pmin + (pmax - pmin) * (a - amin) / (amax - amin)) := by
  obtain ⟨h3, h4, h5⟩ := interp_quotient_bounds ha h1 h2 hp
  exact interp_ok_iff.mpr ⟨h3, ha, rfl, by omega, by omega⟩

theorem clamp_bounds {a lo hi : Int} (h : lo < hi) : lo ≤ clamp a lo hi ∧ clamp a lo hi ≤ hi := by
  unfold clamp
  split
  · omega
  · split <;> omega

theorem clamp_of_mem {a lo hi : Int} (h1 : lo ≤ a) (h2 : a ≤ hi) : clamp a lo hi = a := by
  unfold clamp
  split
  · omega
  · split <;> omega

theorem dutyBits_ok_iff {d : Int} {b : BitVec 12} : dutyBits d = .ok b ↔ d = (b.toNat : Int) := by
  unfold dutyBits
  have hb := b.isLt
  split <;> rename_i h <;> simp only [Config.dutyMax] at h
  · simp only [Except.ok.injEq]
    constructor
    · rintro rfl
      simp only [BitVec.toNat_ofInt]
      omega
    · intro hd
      apply BitVec.eq_of_toNat_eq
      simp only [BitVec.toNat_ofInt]
      omega
  · simp only [reduceCtorEq, false_iff]
    omega

theorem dutyBits_eq {d : Int} (h1 : 0 ≤ d) (h2 : d ≤ 4095) : dutyBits d = .ok (BitVec.ofInt 12 d) := by
  simp [dutyBits, Config.dutyMax, h1, h2]

end Sys2Proof.Machine
end

