-- ==== Sys2Proof/Laws/Commands.lean ====
section
/-! SUPPORT. What a command can answer: one inversion lemma per shared operation and per command. -/

namespace Sys2Proof.Machine

theorem answerRead_next {w : Word} {s t : State} (h : answerRead w s = .next t) :
    t = { s with reply := some { resp := .ok, data := some w } } := by
  simpa [answerRead] using h.symm

theorem answerWrite_next {r : Regs} {s t : State} (h : answerWrite r s = .next t) :
    t = { s with regs := r, reply := some { resp := .ok, data := none } } := by
  simpa [answerWrite] using h.symm

/-- A refused access answers `SLVERR` and keeps the registers; only the response and the free-value counter move. -/
theorem answerBusError_next (q : Request) (s : State) :
    ∃ d n, answerBusError q s = .next { s with reply := some { resp := .slverr, data := d }, nFree := n } := by
  unfold answerBusError
  split
  · exact ⟨_, _, rfl⟩
  · exact ⟨_, s.nFree, rfl⟩

/-- A command that answers next either commits and writes ERR 0, or raises and writes only ERR. -/
theorem finishCommand_next {c : CommandEnd} {s t : State} (h : finishCommand c s = .next t) :
    (∃ r, c = .commit r ∧ t = { s with regs := { r with err := okCode }, reply := some { resp := .ok, data := none } }) ∨
    (∃ e, c = .raise e ∧ t = { s with regs := raiseError e s.regs, reply := some { resp := .ok, data := none } }) := by
  cases c with
  | commit r => exact .inl ⟨r, rfl, answerWrite_next h⟩
  | raise e => exact .inr ⟨e, rfl, answerWrite_next h⟩
  | fault f => cases h

theorem finishCommand_commit (r : Regs) (s : State) :
    finishCommand (.commit r) s =
      .next { s with regs := { r with err := okCode }, reply := some { resp := .ok, data := none } } := rfl

theorem finishCommand_raise (e : CommandError) (s : State) :
    finishCommand (.raise e) s =
      .next { s with regs := raiseError e s.regs, reply := some { resp := .ok, data := none } } := rfl

theorem whenConfigured_true {r : Regs} (c : CommandEnd) (h : r.configured = true) : whenConfigured r c = c := by
  simp [whenConfigured, h]

theorem whenConfigured_false {r : Regs} (c : CommandEnd) (h : r.configured = false) :
    whenConfigured r c = .raise .notConfigured := by
  simp [whenConfigured, h]

/-- Everything `commitPosition` can commit: PULSE and DUTY alone, as INTERP and QUANT give them. -/
theorem commitPosition_commit {r t : Regs} (h : commitPosition r = .commit t) :
    ∃ p duty,
      interp (sint32 r.angle) (sint32 r.amin) (sint32 r.amax) (sint32 r.pmin) (sint32 r.pmax) = .ok p ∧
      quant p (ppuVal r) = .ok (duty.toNat : Int) ∧
      t = { r with pulse := word32 p, duty := duty } := by
  unfold commitPosition at h
  split at h
  · cases h
  · rename_i p hp
    split at h
    · cases h
    · rename_i d hd
      split at h
      · cases h
      · rename_i b hb
        cases h
        rw [dutyBits_ok_iff.mp hb] at hd
        exact ⟨p, b, hp, hd, rfl⟩

theorem commitPosition_ne_raise (r : Regs) (e : CommandError) : commitPosition r ≠ .raise e := by
  unfold commitPosition
  split
  · simp
  · split
    · simp
    · split <;> simp

/-- Where the ranges, the angle, the period constant and the duty bound are legal, `commitPosition` commits. -/
theorem commitPosition_eq {r : Regs} (ha : sint32 r.amin < sint32 r.amax) (h1 : sint32 r.amin ≤ sint32 r.angle)
    (h2 : sint32 r.angle ≤ sint32 r.amax) (hp0 : 0 ≤ sint32 r.pmin) (hp : sint32 r.pmin < sint32 r.pmax)
    (hu : 0 < ppuVal r) (hd : sint32 r.pmax / (ppuVal r * 1024) ≤ 4095) :
    commitPosition r = .commit { r with
      pulse := word32 (sint32 r.pmin + (sint32 r.pmax - sint32 r.pmin) * (sint32 r.angle - sint32 r.amin) /
        (sint32 r.amax - sint32 r.amin)),
      duty := BitVec.ofInt 12 ((sint32 r.pmin + (sint32 r.pmax - sint32 r.pmin) * (sint32 r.angle - sint32 r.amin) /
        (sint32 r.amax - sint32 r.amin)) / (ppuVal r * 1024)) } := by
  obtain ⟨-, hq1, hq2⟩ := interp_quotient_bounds ha h1 h2 hp
  have hq : quant (sint32 r.pmin + (sint32 r.pmax - sint32 r.pmin) * (sint32 r.angle - sint32 r.amin) /
      (sint32 r.amax - sint32 r.amin)) (ppuVal r) = .ok _ := quant_ok_iff.mpr ⟨by omega, hu, rfl⟩
  have hb := dutyBits_eq (d := (sint32 r.pmin + (sint32 r.pmax - sint32 r.pmin) * (sint32 r.angle - sint32 r.amin) /
      (sint32 r.amax - sint32 r.amin)) / (ppuVal r * 1024))
    (Int.ediv_nonneg (by omega) (by omega))
    (le_trans (Int.ediv_le_ediv (by omega) (by omega)) hd)
  simp only [commitPosition, interp_eq ha h1 h2 hp, hq, hb]

/-- The frame of `commitPosition`: it keeps everything but PULSE and DUTY. -/
theorem commitPosition_keeps {r t : Regs} (h : commitPosition r = .commit t) :
    ∃ p d, t = { r with pulse := p, duty := d } := by
  obtain ⟨p, d, -, -, rfl⟩ := commitPosition_commit h
  exact ⟨_, _, rfl⟩

/-- What CONFIG can end in, and when. -/
theorem runConfig_cases (r : Regs) :
    ((operandB r ≤ 0 ∨ 1000000 / operandB r / 4096 = 0) ∧ runConfig r = .raise .invalidFrequency) ∨
    (0 < operandB r ∧ 1000000 / operandB r / 4096 ≠ 0 ∧ (operandA r < 0 ∨ 15 < operandA r) ∧
      runConfig r = .raise .indexOutOfRange) ∨
    (0 < operandB r ∧ 1000000 / operandB r / 4096 ≠ 0 ∧ 0 ≤ operandA r ∧ operandA r ≤ 15 ∧
      runConfig r = commitPosition (configuredRegs r (operandA r) (operandB r) (1000000 / operandB r / 4096))) := by
  by_cases hf : operandB r ≤ 0
  · exact .inl ⟨.inl hf, by simp [runConfig, hf]⟩
  · have hp := ppuOf_eq (f := operandB r) (by omega)
    by_cases hu : 1000000 / operandB r / 4096 = 0
    · exact .inl ⟨.inr hu, by simp [runConfig, hf, hp, hu]⟩
    · by_cases hc : operandA r < 0 ∨ 15 < operandA r
      · exact .inr (.inl ⟨by omega, hu, hc, by simp [runConfig, hf, hp, hu, hc, Config.channelMax]⟩)
      · exact .inr (.inr ⟨by omega, hu, by omega, by omega, by simp [runConfig, hf, hp, hu, hc, Config.channelMax]⟩)

/-- What SET_PULSE_RANGE can end in after the NotConfigured check, and when. -/
theorem runSetPulseRange_cases (r : Regs) :
    ((operandB r ≤ operandA r ∨ operandA r < 0) ∧ runSetPulseRange r = .raise .invalidRange) ∨
    (operandA r < operandB r ∧ 0 ≤ operandA r ∧
      ((∃ f, quant (operandB r) (ppuVal r) = .error f ∧ runSetPulseRange r = .fault f) ∨
       (∃ d, quant (operandB r) (ppuVal r) = .ok d ∧ 4095 < d ∧ runSetPulseRange r = .raise .dutyRange) ∨
       (∃ d, quant (operandB r) (ppuVal r) = .ok d ∧ d ≤ 4095 ∧
        runSetPulseRange r = commitPosition { r with pmin := word32 (operandA r), pmax := word32 (operandB r) }))) := by
  by_cases h : operandB r ≤ operandA r ∨ operandA r < 0
  · exact .inl ⟨h, by simp [runSetPulseRange, h]⟩
  · refine .inr ⟨by omega, by omega, ?_⟩
    cases hq : quant (operandB r) (ppuVal r) with
    | error f => exact .inl ⟨f, rfl, by simp [runSetPulseRange, h, hq]⟩
    | ok d =>
      by_cases hd : 4095 < d
      · exact .inr (.inl ⟨d, rfl, hd, by simp [runSetPulseRange, h, hq, Config.dutyMax, hd]⟩)
      · exact .inr (.inr ⟨d, rfl, by omega, by simp [runSetPulseRange, h, hq, Config.dutyMax, hd]⟩)

/-- What SET_ANGLE_RANGE can end in after the NotConfigured check, and when. -/
theorem runSetAngleRange_cases (r : Regs) :
    (operandB r ≤ operandA r ∧ runSetAngleRange r = .raise .invalidRange) ∨
    (operandA r < operandB r ∧
      runSetAngleRange r = commitPosition { r with
        amin := word32 (operandA r), amax := word32 (operandB r),
        angle := word32 (clamp (sint32 r.angle) (operandA r) (operandB r)) }) := by
  by_cases h : operandB r ≤ operandA r
  · exact .inl ⟨h, by simp [runSetAngleRange, h]⟩
  · exact .inr ⟨by omega, by simp [runSetAngleRange, h]⟩

/-- What SET_ANGLE can end in after the NotConfigured check, and when. -/
theorem runSetAngle_cases (r : Regs) :
    ((operandA r < sint32 r.amin ∨ sint32 r.amax < operandA r) ∧ runSetAngle r = .raise .outOfRange) ∨
    (sint32 r.amin ≤ operandA r ∧ operandA r ≤ sint32 r.amax ∧
      runSetAngle r = commitPosition { r with angle := word32 (operandA r) }) := by
  by_cases h : operandA r < sint32 r.amin ∨ sint32 r.amax < operandA r
  · exact .inl ⟨h, by simp [runSetAngle, h]⟩
  · exact .inr ⟨by omega, by omega, by simp [runSetAngle, h]⟩

/-- The whole shape of an instruction's next state: the pending requests and the free-value counter stay, the response
is `OK`, and the registers stay or are a command's or an operand write's. -/
theorem exec_next_frame {i : Instr} {s t : State} (h : exec i s = .next t) :
    t.pending = s.pending ∧ t.nFree = s.nFree ∧ ∃ d, t.reply = some { resp := .ok, data := d } := by
  cases i
  case config | setPulseRange | setAngleRange | setAngle =>
    obtain ⟨r, -, rfl⟩ | ⟨e, -, rfl⟩ := finishCommand_next h <;> exact ⟨rfl, rfl, _, rfl⟩
  case wrOpa | wrOpb =>
    cases answerWrite_next h
    exact ⟨rfl, rfl, _, rfl⟩
  all_goals
    cases answerRead_next h
    exact ⟨rfl, rfl, _, rfl⟩

end Sys2Proof.Machine
end

