-- ==== Sys2Proof/Laws/Bus.lean ====
section
/-! SUPPORT. What decoding, an access and a step can answer. -/

namespace Sys2Proof.Machine

open Sys2Proof

/-- A step that answers next performs one access or one reset; an overlapped access leaves the reset to come next. -/
theorem step_cases {s t : State} (h : step s = .next t) :
    (∃ q rest, s.pending = .access q :: rest ∧ performAccess q { s with pending := rest } = .next t) ∨
    (∃ rest, s.pending = .reset :: rest ∧ t = applyReset { s with pending := rest }) ∨
    (∃ q rest, s.pending = .resetDuring q :: rest ∧
      (performAccess q { s with pending := .reset :: rest, nFree := s.nFree + 1 } = .next t ∨
       t = applyReset { s with pending := rest, nFree := s.nFree + 1 })) := by
  unfold step performNext at h
  split at h
  · cases h
  · rename_i k rest hk
    cases k with
    | access q => exact .inl ⟨q, rest, hk, h⟩
    | reset =>
      cases h
      exact .inr (.inl ⟨rest, hk, rfl⟩)
    | resetDuring q =>
      refine .inr (.inr ⟨q, rest, hk, ?_⟩)
      simp only [performHostStep] at h
      split at h
      · exact .inl h
      · cases h
        exact .inr rfl

theorem step_access {s : State} {q : Request} {rest : List HostStep} (h : s.pending = .access q :: rest) :
    step s = performAccess q { s with pending := rest } := by
  simp [step, performNext, h, performHostStep]

theorem step_reset {s : State} {rest : List HostStep} (h : s.pending = .reset :: rest) :
    step s = .next (applyReset { s with pending := rest }) := by
  simp [step, performNext, h, performHostStep]

/-- An access that answers next is an instruction, an illegal command or a bus error, with that effect. -/
theorem performAccess_cases {q : Request} {s t : State} (h : performAccess q s = .next t) :
    (∃ i, decode q = .instr i ∧ exec i s = .next t) ∨
    (∃ w, decode q = .illegalCommand w ∧
      t = { s with regs := raiseError .illegalCommand s.regs, reply := some { resp := .ok, data := none } }) ∨
    (∃ e d n, decode q = .busError e ∧ t = { s with reply := some { resp := .slverr, data := d }, nFree := n }) := by
  unfold performAccess at h
  split at h
  · exact .inl ⟨_, by assumption, h⟩
  · exact .inr (.inl ⟨_, by assumption, answerWrite_next h⟩)
  · obtain ⟨d, n, hd⟩ := answerBusError_next q s
    rw [hd] at h
    cases h
    exact .inr (.inr ⟨_, d, n, by assumption, rfl⟩)

/-- The register effect of one instruction: nothing, a written operand, or a command's end. -/
theorem exec_regs_cases {i : Instr} {s t : State} (h : exec i s = .next t) :
    t.regs = s.regs ∨ (∃ v, t.regs = { s.regs with opa := v }) ∨ (∃ v, t.regs = { s.regs with opb := v }) ∨
    (∃ e, e ≠ .invalidPulse ∧ t.regs = raiseError e s.regs) ∨
    (∃ r, (runConfig s.regs = .commit r ∨ (s.regs.configured = true ∧ (runSetPulseRange s.regs = .commit r ∨
      runSetAngleRange s.regs = .commit r ∨ runSetAngle s.regs = .commit r))) ∧ t.regs = { r with err := okCode }) := by
  cases i
  case config =>
    obtain ⟨r, hr, rfl⟩ | ⟨e, he, rfl⟩ := finishCommand_next h
    · exact .inr (.inr (.inr (.inr ⟨r, .inl hr, rfl⟩)))
    · refine .inr (.inr (.inr (.inl ⟨e, ?_, rfl⟩)))
      rintro rfl
      obtain ⟨-, h'⟩ | ⟨-, -, -, h'⟩ | ⟨-, -, -, -, h'⟩ := runConfig_cases s.regs <;> rw [h'] at he
      · cases he
      · cases he
      · exact commitPosition_ne_raise _ _ he
  case setPulseRange =>
    cases hc : s.regs.configured
    · simp only [exec, execSetPulseRange, whenConfigured_false _ hc] at h
      cases answerWrite_next h
      exact .inr (.inr (.inr (.inl ⟨.notConfigured, by simp, rfl⟩)))
    · simp only [exec, execSetPulseRange, whenConfigured_true _ hc] at h
      obtain ⟨r, hr, rfl⟩ | ⟨e, he, rfl⟩ := finishCommand_next h
      · exact .inr (.inr (.inr (.inr ⟨r, .inr ⟨rfl, .inl hr⟩, rfl⟩)))
      · refine .inr (.inr (.inr (.inl ⟨e, ?_, rfl⟩)))
        rintro rfl
        obtain ⟨-, h'⟩ | ⟨-, -, ⟨f, -, h'⟩ | ⟨d, -, -, h'⟩ | ⟨d, -, -, h'⟩⟩ := runSetPulseRange_cases s.regs <;> rw [h'] at he
        · cases he
        · cases he
        · cases he
        · exact commitPosition_ne_raise _ _ he
  case setAngleRange =>
    cases hc : s.regs.configured
    · simp only [exec, execSetAngleRange, whenConfigured_false _ hc] at h
      cases answerWrite_next h
      exact .inr (.inr (.inr (.inl ⟨.notConfigured, by simp, rfl⟩)))
    · simp only [exec, execSetAngleRange, whenConfigured_true _ hc] at h
      obtain ⟨r, hr, rfl⟩ | ⟨e, he, rfl⟩ := finishCommand_next h
      · exact .inr (.inr (.inr (.inr ⟨r, .inr ⟨rfl, .inr (.inl hr)⟩, rfl⟩)))
      · refine .inr (.inr (.inr (.inl ⟨e, ?_, rfl⟩)))
        rintro rfl
        obtain ⟨-, h'⟩ | ⟨-, h'⟩ := runSetAngleRange_cases s.regs <;> rw [h'] at he
        · cases he
        · exact commitPosition_ne_raise _ _ he
  case setAngle =>
    cases hc : s.regs.configured
    · simp only [exec, execSetAngle, whenConfigured_false _ hc] at h
      cases answerWrite_next h
      exact .inr (.inr (.inr (.inl ⟨.notConfigured, by simp, rfl⟩)))
    · simp only [exec, execSetAngle, whenConfigured_true _ hc] at h
      obtain ⟨r, hr, rfl⟩ | ⟨e, he, rfl⟩ := finishCommand_next h
      · exact .inr (.inr (.inr (.inr ⟨r, .inr ⟨rfl, .inr (.inr hr)⟩, rfl⟩)))
      · refine .inr (.inr (.inr (.inl ⟨e, ?_, rfl⟩)))
        rintro rfl
        obtain ⟨-, h'⟩ | ⟨-, -, h'⟩ := runSetAngle_cases s.regs <;> rw [h'] at he
        · cases he
        · exact commitPosition_ne_raise _ _ he
  case wrOpa v =>
    cases answerWrite_next h
    exact .inr (.inl ⟨v, rfl⟩)
  case wrOpb v =>
    cases answerWrite_next h
    exact .inr (.inr (.inl ⟨v, rfl⟩))
  all_goals
    cases answerRead_next h
    exact .inl rfl

end Sys2Proof.Machine
end

