-- ==== Sys2Proof/Laws/Decode.lean ====
section
/-! SUPPORT. What the decoder can answer, once for each of its parts. -/

namespace Sys2Proof

open Sys2Proof.Machine

/-- OP and RES are the whole command word. -/
theorem word_of_fields {w : Word} {k : BitVec 4} (h1 : resField w = 0#28) (h2 : opField w = k) :
    w = BitVec.ofNat 32 k.toNat := by
  have h1 := congrArg BitVec.toNat h1
  have h2 := congrArg BitVec.toNat h2
  apply BitVec.eq_of_toNat_eq
  simp only [resField, opField, BitVec.extractLsb'_toNat, Nat.shiftRight_eq_div_pow, BitVec.toNat_ofNat] at *
  have := w.isLt
  have := k.isLt
  omega

theorem decodeCommand_some_iff {w : Word} {i : Instr} :
    decodeCommand w = some i ↔
      (w = 1#32 ∧ i = .config) ∨ (w = 2#32 ∧ i = .setPulseRange) ∨ (w = 3#32 ∧ i = .setAngleRange) ∨
        (w = 4#32 ∧ i = .setAngle) := by
  constructor
  · intro h
    unfold decodeCommand at h
    split_ifs at h with h0 h1 h2 h3 h4 <;> simp only [not_not] at h0 <;> cases h
    · cases word_of_fields h0 h1
      simp
    · cases word_of_fields h0 h2
      simp
    · cases word_of_fields h0 h3
      simp
    · cases word_of_fields h0 h4
      simp
  · rintro (⟨rfl, rfl⟩ | ⟨rfl, rfl⟩ | ⟨rfl, rfl⟩ | ⟨rfl, rfl⟩) <;> decide

theorem encode_of_decodeRead {a : Offset} {i : Instr} (h : decodeRead a = some i) : encode i = readReq a := by
  have hall : ∀ a : Offset, (decodeRead a).all (fun i => encode i = readReq a) = true := by decide
  simpa [h] using hall a

theorem whole_iff {q : Request} : isWholeWord q = true ↔ q.size = 4 ∧ q.lanes = allLanes := by
  simp [isWholeWord]

end Sys2Proof
end

