-- ==== Sys2Proof/Laws/PerInstr.lean ====
section
/-! SUPPORT. Statements made per instruction: the access of every instruction is an aligned whole word (20_memory R37, R38). -/

namespace Sys2Proof.Laws.EncodeWholeAligned

open Sys2Proof Sys2Proof.Machine

/-- The encoded access is one aligned 32-bit word with all lanes enabled. -/
def Statement (i : Instr) : Prop := isWholeWord (encode i) = true ∧ isAligned (encode i) = true

theorem config : Statement .config := ⟨rfl, rfl⟩
theorem setPulseRange : Statement .setPulseRange := ⟨rfl, rfl⟩
theorem setAngleRange : Statement .setAngleRange := ⟨rfl, rfl⟩
theorem setAngle : Statement .setAngle := ⟨rfl, rfl⟩
theorem wrOpa (v : Word) : Statement (.wrOpa v) := ⟨rfl, by simp [isAligned, encode, writeReq, alignField]⟩
theorem wrOpb (v : Word) : Statement (.wrOpb v) := ⟨rfl, by simp [isAligned, encode, writeReq, alignField]⟩
theorem rdOpa : Statement .rdOpa := ⟨rfl, rfl⟩
theorem rdOpb : Statement .rdOpb := ⟨rfl, rfl⟩
theorem rdStatus : Statement .rdStatus := ⟨rfl, rfl⟩
theorem rdChannel : Statement .rdChannel := ⟨rfl, rfl⟩
theorem rdFreq : Statement .rdFreq := ⟨rfl, rfl⟩
theorem rdPpu : Statement .rdPpu := ⟨rfl, rfl⟩
theorem rdPmin : Statement .rdPmin := ⟨rfl, rfl⟩
theorem rdPmax : Statement .rdPmax := ⟨rfl, rfl⟩
theorem rdAmin : Statement .rdAmin := ⟨rfl, rfl⟩
theorem rdAmax : Statement .rdAmax := ⟨rfl, rfl⟩
theorem rdAngle : Statement .rdAngle := ⟨rfl, rfl⟩
theorem rdPulse : Statement .rdPulse := ⟨rfl, rfl⟩
theorem rdDuty : Statement .rdDuty := ⟨rfl, rfl⟩

end Sys2Proof.Laws.EncodeWholeAligned
end

