-- ==== Sys2Proof/Laws/State.lean ====
section
/-! SUPPORT. One lemma per field per named update of the registers and of the state. -/

namespace Sys2Proof.Machine

section
variable (e : CommandError) (r : Regs) (ch f u : Int) (s : State) (h : HostStep)

@[simp] theorem raiseError_opa : (raiseError e r).opa = r.opa := rfl
@[simp] theorem raiseError_opb : (raiseError e r).opb = r.opb := rfl
@[simp] theorem raiseError_channel : (raiseError e r).channel = r.channel := rfl
@[simp] theorem raiseError_freq : (raiseError e r).freq = r.freq := rfl
@[simp] theorem raiseError_ppu : (raiseError e r).ppu = r.ppu := rfl
@[simp] theorem raiseError_pmin : (raiseError e r).pmin = r.pmin := rfl
@[simp] theorem raiseError_pmax : (raiseError e r).pmax = r.pmax := rfl
@[simp] theorem raiseError_amin : (raiseError e r).amin = r.amin := rfl
@[simp] theorem raiseError_amax : (raiseError e r).amax = r.amax := rfl
@[simp] theorem raiseError_angle : (raiseError e r).angle = r.angle := rfl
@[simp] theorem raiseError_pulse : (raiseError e r).pulse = r.pulse := rfl
@[simp] theorem raiseError_duty : (raiseError e r).duty = r.duty := rfl
@[simp] theorem raiseError_err : (raiseError e r).err = errorCode e := rfl
@[simp] theorem raiseError_configured : (raiseError e r).configured = r.configured := rfl

@[simp] theorem configuredRegs_opa : (configuredRegs r ch f u).opa = r.opa := rfl
@[simp] theorem configuredRegs_opb : (configuredRegs r ch f u).opb = r.opb := rfl
@[simp] theorem configuredRegs_channel : (configuredRegs r ch f u).channel = BitVec.ofInt 4 ch := rfl
@[simp] theorem configuredRegs_freq : (configuredRegs r ch f u).freq = word32 f := rfl
@[simp] theorem configuredRegs_ppu : (configuredRegs r ch f u).ppu = BitVec.ofInt 8 u := rfl
@[simp] theorem configuredRegs_pmin : (configuredRegs r ch f u).pmin = Config.defaultPulseMin := rfl
@[simp] theorem configuredRegs_pmax : (configuredRegs r ch f u).pmax = Config.defaultPulseMax := rfl
@[simp] theorem configuredRegs_amin : (configuredRegs r ch f u).amin = Config.defaultAngleMin := rfl
@[simp] theorem configuredRegs_amax : (configuredRegs r ch f u).amax = Config.defaultAngleMax := rfl
@[simp] theorem configuredRegs_angle : (configuredRegs r ch f u).angle = Config.defaultAngleMin := rfl
@[simp] theorem configuredRegs_pulse : (configuredRegs r ch f u).pulse = r.pulse := rfl
@[simp] theorem configuredRegs_duty : (configuredRegs r ch f u).duty = r.duty := rfl
@[simp] theorem configuredRegs_err : (configuredRegs r ch f u).err = r.err := rfl
@[simp] theorem configuredRegs_configured : (configuredRegs r ch f u).configured = true := rfl

@[simp] theorem applyReset_regs : (applyReset s).regs = Regs.reset := rfl
@[simp] theorem applyReset_pending : (applyReset s).pending = s.pending := rfl
@[simp] theorem applyReset_reply : (applyReset s).reply = none := rfl
@[simp] theorem applyReset_nFree : (applyReset s).nFree = s.nFree := rfl

@[simp] theorem requestFirst_regs : (requestFirst h s).regs = s.regs := rfl
@[simp] theorem requestFirst_pending : (requestFirst h s).pending = h :: s.pending := rfl
@[simp] theorem requestFirst_reply : (requestFirst h s).reply = s.reply := rfl
@[simp] theorem requestFirst_nFree : (requestFirst h s).nFree = s.nFree := rfl

end

end Sys2Proof.Machine
end

