-- ==== Sys2Proof/Tests/Slice0.lean ====
section
/-! SUPPORT. Tests with the values spec/95_test_vectors.md and the encoding tables print (never the model's own answers),
and a witness for the hypotheses of every statement that has any. -/

namespace Sys2Proof.Tests

-- One proof at a time: in the package's one text, every evaluation that waits for the kernel holds a thread and its stack.
set_option Elab.async false

open Sys2Proof Sys2Proof.Machine

/-- The next state, where there is one. -/
def stateOf : Host.Outcome State Fault Refusal → Option State
  | .next t => some t
  | .fault _ => none
  | .refused _ => none

theorem next_of_stateOf {o : Host.Outcome State Fault Refusal} {t : State} (h : stateOf o = some t) : o = .next t := by
  cases o <;> simp_all [stateOf]

theorem exists_next {o : Host.Outcome State Fault Refusal} (h : (stateOf o).isSome = true) : ∃ t, o = .next t := by
  obtain ⟨t, ht⟩ := Option.isSome_iff_exists.mp h
  exact ⟨t, next_of_stateOf ht⟩

/-- The reset image (10_state R34) with the given operands and CONFIGURED bit. With CONFIGURED it is the state that
`CONFIG 0, 40` leaves, with new operands (41_configuration R77). -/
def base (c : Bool) (a b : Word) : State :=
  { State.reset with regs := { Regs.reset with configured := c, opa := a, opb := b } }

/-- `CONFIG 0, 40` then `SET_ANGLE` to the given angle, whose pulse and duty the vector file prints. -/
def at45 (a b : Word) : State :=
  { State.reset with
    regs :=
      { Regs.reset with configured := true, opa := a, opb := b, angle := 0x002D0000#32, pulse := 0x00138800#32
                        duty := 208#12 } }

def at170 (a b : Word) : State :=
  { State.reset with
    regs :=
      { Regs.reset with configured := true, opa := a, opb := b, angle := 0x00AA0000#32, pulse := 0x001E61C7#32
                        duty := 324#12 } }

def at90 (a b : Word) : State :=
  { State.reset with
    regs :=
      { Regs.reset with configured := true, opa := a, opb := b, angle := 0x005A0000#32, pulse := 0x00177000#32
                        duty := 250#12 } }

/-- The given host steps requested of a state. -/
def asked (s : State) (l : List HostStep) : State := { s with pending := l }

/-- ANGLE, PULSE, DUTY and STATUS after an instruction. -/
def position (o : Host.Outcome State Fault Refusal) : Option (Word × Word × Nat × Word) :=
  (stateOf o).map fun t => (t.regs.angle, t.regs.pulse, t.regs.duty.toNat, statusWord t.regs)

/-- PMIN, PMAX, AMIN, AMAX after an instruction. -/
def ranges (o : Host.Outcome State Fault Refusal) : Option (Word × Word × Word × Word) :=
  (stateOf o).map fun t => (t.regs.pmin, t.regs.pmax, t.regs.amin, t.regs.amax)

/-- The registers after an instruction. -/
def regsOf (o : Host.Outcome State Fault Refusal) : Option Regs := (stateOf o).map State.regs

/-- The response of an instruction. -/
def replyOf (o : Host.Outcome State Fault Refusal) : Option Reply := (stateOf o).bind State.reply

/-! ### Well-formedness: one ill-formed term for each check -/

theorem test_wf_good_read : wellFormedRequest (readReq 0x0C#6) = true := by decide
theorem test_wf_good_write : wellFormedRequest (writeReq 0x00#6 1#32) = true := by decide
/-- R37: an 8-bit write (V-B11). -/
theorem test_wf_size : wellFormedRequest { writeReq 0x04#6 1#32 with size := 1 } = false := by decide
/-- R37: byte lane 3 disabled (V-B12). -/
theorem test_wf_lanes : wellFormedRequest { writeReq 0x00#6 1#32 with lanes := 0x7#4 } = false := by decide
/-- R38 (V-B2, V-B10). -/
theorem test_wf_aligned : wellFormedRequest (readReq 0x02#6) = false ∧ wellFormedRequest (writeReq 0x02#6 123#32) = false := by
  decide
/-- R41 (V-B3, V-B4, V-B8, V-B9). -/
theorem test_wf_mapped :
    wellFormedRequest (readReq 0x38#6) = false ∧ wellFormedRequest (readReq 0x3C#6) = false ∧
      wellFormedRequest (writeReq 0x38#6 123#32) = false ∧ wellFormedRequest (writeReq 0x3C#6 123#32) = false := by
  decide
/-- R42 (V-B1). -/
theorem test_wf_read_cmd : wellFormedRequest (readReq 0x00#6) = false := by decide
/-- R42 (V-B5, V-B6, V-B7). -/
theorem test_wf_read_only :
    wellFormedRequest (writeReq 0x0C#6 123#32) = false ∧ wellFormedRequest (writeReq 0x10#6 123#32) = false ∧
      wellFormedRequest (writeReq 0x34#6 123#32) = false := by
  decide
/-- R62: a plain integer outside `[-2^31, 2^32 - 1]`. -/
theorem test_wf_int_range :
    wellFormedLit (.int 4294967296) = false ∧ wellFormedLit (.int (-2147483649)) = false ∧
      wellFormedLit (.int 4294967295) = true ∧ wellFormedLit (.int (-2147483648)) = true := by
  decide
/-- R64: `0.0001deg` is refused. -/
theorem test_wf_inexact : wellFormedLit (.deg { mant := 1, places := 4 }) = false := by decide
/-- R62: 32768 degrees is one past the format. -/
theorem test_wf_scaled_range :
    wellFormedLit (.deg { mant := 32768, places := 0 }) = false ∧
      wellFormedLit (.deg { mant := -32768, places := 0 }) = true := by
  decide
theorem test_wf_stmt : wellFormedStmt (.setAngle (.deg { mant := 1, places := 4 })) = false ∧ wellFormedStmt .check = true := by
  decide

/-! ### Decoding: the words of 30_encoding R55 and R61 and of opcode_table.json, written out -/

theorem test_decode_commands :
    decodeTableWord 32 0b00000000000000000000000000000001 = some .config ∧
      decodeTableWord 32 0b00000000000000000000000000000010 = some .setPulseRange ∧
      decodeTableWord 32 0b00000000000000000000000000000011 = some .setAngleRange ∧
      decodeTableWord 32 0b00000000000000000000000000000100 = some .setAngle := by
  decide
/-- `{wr, addr}` with `wr = 1`: 0x44 and 0x48; the written word follows from bit 8. -/
theorem test_decode_writes :
    decodeTableWord 8 0b01000100 = some (.wrOpa 0#32) ∧ decodeTableWord 8 0b01001000 = some (.wrOpb 0#32) ∧
      decodeTableWord 8 0xDEADBEEF44 = some (.wrOpa 0xDEADBEEF#32) := by
  decide
theorem test_decode_reads :
    decodeTableWord 8 0b00000100 = some .rdOpa ∧ decodeTableWord 8 0b00001000 = some .rdOpb ∧
      decodeTableWord 8 0b00001100 = some .rdStatus ∧ decodeTableWord 8 0b00010000 = some .rdChannel ∧
      decodeTableWord 8 0b00010100 = some .rdFreq ∧ decodeTableWord 8 0b00011000 = some .rdPpu ∧
      decodeTableWord 8 0b00011100 = some .rdPmin ∧ decodeTableWord 8 0b00100000 = some .rdPmax ∧
      decodeTableWord 8 0b00100100 = some .rdAmin ∧ decodeTableWord 8 0b00101000 = some .rdAmax ∧
      decodeTableWord 8 0b00101100 = some .rdAngle ∧ decodeTableWord 8 0b00110000 = some .rdPulse ∧
      decodeTableWord 8 0b00110100 = some .rdDuty := by
  decide
/-- V-E1 to V-E7: RES must be 0 and OP one of 1 to 4. -/
theorem test_decode_illegal_words :
    decode (writeReq 0x00#6 0x00000000#32) = .illegalCommand 0x00000000#32 ∧
      decode (writeReq 0x00#6 0x00000005#32) = .illegalCommand 0x00000005#32 ∧
      decode (writeReq 0x00#6 0x0000000F#32) = .illegalCommand 0x0000000F#32 ∧
      decode (writeReq 0x00#6 0x00000010#32) = .illegalCommand 0x00000010#32 ∧
      decode (writeReq 0x00#6 0x00000011#32) = .illegalCommand 0x00000011#32 ∧
      decode (writeReq 0x00#6 0x80000004#32) = .illegalCommand 0x80000004#32 ∧
      decode (writeReq 0x00#6 0xFFFFFFFF#32) = .illegalCommand 0xFFFFFFFF#32 := by
  decide
/-- Keys with no row (R61). -/
theorem test_decode_no_row :
    decodeTableWord 8 0x00 = none ∧ decodeTableWord 8 0x38 = none ∧ decodeTableWord 8 0x4C = none ∧
      decodeTableWord 8 0x84 = none := by
  decide
theorem test_bus_key : busKey (encode (.wrOpb 0#32)) = 0x48#7 ∧ busKey (encode .rdDuty) = 0x34#7 := by decide
/-- A table word placed by `withFetchWord` is the next step. -/
theorem test_fetch_word :
    replyOf (step (State.reset.withFetchWord 8 0x18)) = some { resp := .ok, data := some 0x00000006#32 } ∧
      replyOf (step (State.reset.withFetchWord 32 1)) = some { resp := .ok, data := none } := by
  decide +kernel

/-! ### Datapath: 95_test_vectors 2.1 to 2.4 -/

/-- V-P15, V-P16, V-P17. -/
theorem test_ppu : ppuOf 200 = .ok 1 ∧ ppuOf 244 = .ok 1 ∧ ppuOf 245 = .ok 0 := by decide +kernel
/-- V-Q2, V-Q3, V-Q4, V-Q7, V-Q8, V-Q13. -/
theorem test_quant :
    quant 0x000017FF 6 = .ok 0 ∧ quant 0x00001800 6 = .ok 1 ∧ quant 0x000FA000 6 = .ok 166 ∧
      quant 0x017FFFFF 6 = .ok 4095 ∧ quant 0x01800000 6 = .ok 4096 ∧ quant 0x3CFFFFFF 244 = .ok 4095 := by
  decide +kernel
/-- V-I2, V-I5, V-I9, V-I11. -/
theorem test_interp :
    interp 0x00010000 0 0x00B40000 0x000FA000 0x001F4000 = .ok 0x000FB638 ∧
      interp 0x00AA0000 0 0x00B40000 0x000FA000 0x001F4000 = .ok 0x001E61C7 ∧
      interp 0x0000000B 0 0x00B40000 0x000FA000 0x001F4000 = .ok 0x000FA000 ∧
      interp 0x0000000C 0 0x00B40000 0x000FA000 0x001F4000 = .ok 0x000FA001 ∧
      interp 0x00B3FFFF 0 0x00B40000 0x000FA000 0x001F4000 = .ok 0x001F3FFF := by
  decide +kernel
/-- V-I13, V-I14: the widest product. -/
theorem test_interp_widest :
    interp 0x7FFFFFFF (-0x80000000) 0x7FFFFFFF 0 0x7FFFFFFF = .ok 0x7FFFFFFF ∧
      interp 0 (-0x80000000) 0x7FFFFFFF 0 0x7FFFFFFF = .ok 0x3FFFFFFF := by
  decide +kernel
/-- V-K2, V-K3, V-K5. -/
theorem test_clamp :
    clamp (sint32 0x002D0000#32) (sint32 0xFFA60000#32) (sint32 0x005A0000#32) = sint32 0x002D0000#32 ∧
      clamp (sint32 0x002D0000#32) (sint32 0x00640000#32) (sint32 0x00C80000#32) = sint32 0x00640000#32 ∧
      clamp (sint32 0x80000000#32) (sint32 0xFFFF0000#32) (sint32 0x00010000#32) = sint32 0xFFFF0000#32 := by
  decide +kernel

/-! ### The commands: 95_test_vectors 2.5 to 2.9 -/

/-- V-C1. -/
theorem test_config :
    regsOf (exec .config (base false 3#32 40#32)) =
      some { opa := 3#32, opb := 40#32, channel := 3#4, freq := 40#32, ppu := 6#8, pmin := 0x000FA000#32
             pmax := 0x001F4000#32, amin := 0#32, amax := 0x00B40000#32, angle := 0#32, pulse := 0x000FA000#32
             duty := 166#12, err := 0#4, configured := true } := by
  decide +kernel
/-- V-C12: both operands bad, the frequency is reported; V-C5. -/
theorem test_config_rejects :
    position (exec .config (base false 16#32 0#32)) = some (0#32, 0x000FA000#32, 166, 0x00000005#32) ∧
      position (exec .config (base false 0xFFFFFFFF#32 40#32)) = some (0#32, 0x000FA000#32, 166, 0x00000004#32) := by
  decide +kernel
/-- V-R1: the angle stays, the pulse is computed anew. -/
theorem test_set_pulse_range :
    position (exec .setPulseRange (at45 0x0007D000#32 0x00271000#32)) =
        some (0x002D0000#32, 0x000FA000#32, 166, 0x00000010#32) ∧
      ranges (exec .setPulseRange (at45 0x0007D000#32 0x00271000#32)) =
        some (0x0007D000#32, 0x00271000#32, 0#32, 0x00B40000#32) := by
  decide +kernel
/-- V-R9, V-R7: InvalidRange is checked before DutyRange. -/
theorem test_set_pulse_range_rejects :
    position (exec .setPulseRange (at45 0xFFFFFFFF#32 0x7FFFFFFF#32)) =
        some (0x002D0000#32, 0x00138800#32, 208, 0x00000011#32) ∧
      position (exec .setPulseRange (at45 0x000FA000#32 0x01800000#32)) =
        some (0x002D0000#32, 0x00138800#32, 208, 0x00000016#32) := by
  decide +kernel
/-- V-A1, V-A2: clamped to the new maximum; kept, with a new pulse. -/
theorem test_set_angle_range :
    position (exec .setAngleRange (at170 0#32 0x00A00000#32)) =
        some (0x00A00000#32, 0x001F4000#32, 333, 0x00000010#32) ∧
      position (exec .setAngleRange (at45 0xFFA60000#32 0x005A0000#32)) =
        some (0x002D0000#32, 0x001B5800#32, 291, 0x00000010#32) := by
  decide +kernel
/-- V-A4, V-A9. -/
theorem test_set_angle_range_rejects :
    position (exec .setAngleRange (at45 0x000A0000#32 0x000A0000#32)) =
        some (0x002D0000#32, 0x00138800#32, 208, 0x00000011#32) ∧
      position (exec .setAngleRange (base false 0#32 0x005A0000#32)) =
        some (0#32, 0x000FA000#32, 166, 0x00000007#32) := by
  decide +kernel
/-- V-S5. -/
theorem test_set_angle :
    position (exec .setAngle (base true 0x00AA0000#32 7#32)) = some (0x00AA0000#32, 0x001E61C7#32, 324, 0x00000010#32) := by
  decide +kernel
/-- V-S8, V-S9: one LSB outside either bound. -/
theorem test_set_angle_rejects :
    position (exec .setAngle (at90 0x00B40001#32 0#32)) = some (0x005A0000#32, 0x00177000#32, 250, 0x00000012#32) ∧
      position (exec .setAngle (at90 0xFFFFFFFF#32 0#32)) = some (0x005A0000#32, 0x00177000#32, 250, 0x00000012#32) := by
  decide +kernel
/-- V-E5 and V-E8: an illegal word, configured and not. -/
theorem test_illegal_command :
    position (step (asked (base true 0#32 40#32) [.access (writeReq 0x00#6 0x00000011#32)])) =
        some (0#32, 0x000FA000#32, 166, 0x00000018#32) ∧
      position (step (asked State.reset [.access (writeReq 0x00#6 0#32)])) =
        some (0#32, 0x000FA000#32, 166, 0x00000008#32) := by
  decide +kernel

/-! ### Accesses: 95_test_vectors 2.10 and 2.11 -/

/-- The word a read of reset registers returns. -/
def resetRead (i : Instr) : Option Reply := replyOf (exec i State.reset)

/-- A read answered `OK` with a word. -/
def okRead (w : Word) : Option Reply := some { resp := .ok, data := some w }

/-- V-X1 to V-X12. -/
theorem test_reads_at_reset :
    resetRead .rdStatus = okRead 0x00000000#32 ∧ resetRead .rdChannel = okRead 0x00000000#32 ∧
      resetRead .rdFreq = okRead 0x00000028#32 ∧ resetRead .rdPpu = okRead 0x00000006#32 ∧
      resetRead .rdPmin = okRead 0x000FA000#32 ∧ resetRead .rdPmax = okRead 0x001F4000#32 ∧
      resetRead .rdAmin = okRead 0x00000000#32 ∧ resetRead .rdAmax = okRead 0x00B40000#32 ∧
      resetRead .rdAngle = okRead 0x00000000#32 ∧ resetRead .rdPulse = okRead 0x000FA000#32 ∧
      resetRead .rdDuty = okRead 0x000000A6#32 ∧ resetRead .rdOpa = okRead 0#32 ∧ resetRead .rdOpb = okRead 0#32 := by
  decide +kernel
/-- V-X13, V-X14. -/
theorem test_operand_writes :
    regsOf (exec (.wrOpa 0xDEADBEEF#32) State.reset) = some { Regs.reset with opa := 0xDEADBEEF#32 } ∧
      regsOf (exec (.wrOpb 0x12345678#32) State.reset) = some { Regs.reset with opb := 0x12345678#32 } := by
  decide +kernel
/-- STATUS `ERR | CONFIGURED << 4` (the conventions of 95_test_vectors). -/
theorem test_status_word : statusWord { Regs.reset with err := 2#4, configured := true } = 0x00000012#32 := by decide
/-- V-B12: a CMD write with lane 3 disabled is `SLVERR` and does not run. -/
theorem test_partial_cmd_write :
    (stateOf (step (asked (base false 3#32 40#32) [.access { writeReq 0x00#6 1#32 with lanes := 0x7#4 }]))).map
        (fun t => (t.regs, t.reply)) =
      some ((base false 3#32 40#32).regs, some { resp := .slverr, data := none }) := by
  decide +kernel
/-- V-B1: a read of CMD is `SLVERR` and changes no register. -/
theorem test_read_cmd :
    (stateOf (step (asked State.reset [.access (readReq 0x00#6)]))).map
        (fun t => (t.regs, t.reply.map Reply.resp)) = some (Regs.reset, some .slverr) := by
  decide +kernel
theorem test_nothing_requested : step State.reset = .refused .noHostStep := rfl

/-! ### Assembler text: 30_encoding R62 to R64 and program P1 -/

theorem test_line_literals :
    assembleLine ['W', 'R', ' ', 'O', 'P', 'A', ',', ' ', '-', '9', '0', 'd', 'e', 'g'] =
        some [writeReq 0x04#6 0xFFA60000#32] ∧
      assembleLine ['W', 'R', ' ', 'O', 'P', 'B', ',', '1', '.', '5', 'm', 's'] = some [writeReq 0x08#6 0x00177000#32] ∧
      assembleLine ['W', 'R', ' ', 'C', 'M', 'D', ',', ' ', '0', 'x', '1', 'F'] = some [writeReq 0x00#6 0x0000001F#32] ∧
      assembleLine ['W', 'R', ' ', 'O', 'P', 'A', ',', '0', '.', '0', '0', '0', '1', 'd', 'e', 'g'] = none := by
  decide +kernel
/-- The first and fourth lines of P1. -/
theorem test_line_pseudo :
    assembleLine ['C', 'O', 'N', 'F', 'I', 'G', ' ', '3', ',', ' ', '4', '0', ' ', ';', ' ', 'x'] =
        some [writeReq 0x04#6 3#32, writeReq 0x08#6 40#32, writeReq 0x00#6 1#32] ∧
      assembleLine ['S', 'E', 'T', '_', 'A', 'N', 'G', 'L', 'E', ' ', '9', '0', 'd', 'e', 'g'] =
        some [writeReq 0x04#6 0x005A0000#32, writeReq 0x00#6 4#32] ∧
      assembleLine ['R', 'D', ' ', 'D', 'U', 'T', 'Y'] = some [readReq 0x34#6] ∧ assembleLine [';'] = some [] := by
  decide +kernel

/-! ### Witnesses: the hypotheses of each statement are met together, at the ends of their ranges -/

theorem inv_reset : Regs.reset.Inv :=
  ⟨by decide, by decide, by decide, by decide +kernel, by decide +kernel, by decide +kernel,
    ⟨333, by decide +kernel, by omega⟩, by decide +kernel⟩

theorem inv_at45 : (at45 0#32 0#32).regs.Inv :=
  ⟨by decide, by decide, by decide, by decide +kernel, by decide +kernel, by decide +kernel,
    ⟨333, by decide +kernel, by omega⟩, by decide +kernel⟩

/-- The invariants say nothing of OPA, OPB and STATUS. -/
theorem inv_with {r : Regs} (h : r.Inv) (c : Bool) (a b : Word) (e : BitVec 4) :
    { r with configured := c, opa := a, opb := b, err := e }.Inv :=
  ⟨h.1, h.2, h.3, h.4, h.5, h.6, h.7, h.8⟩

theorem inv_base (c : Bool) (a b : Word) : (base c a b).regs.Inv := inv_with inv_reset c a b 0#4

theorem inv_45 (a b : Word) : (at45 a b).regs.Inv := inv_with inv_at45 true a b 0#4

theorem witness_ResetImage :
    ∃ s t : State, s.regs.opa = 0#32 ∧ s.regs.opb = 40#32 ∧ exec .config s = .next t :=
  let ⟨t, h⟩ := exists_next (o := exec .config (base false 0#32 40#32)) (by decide +kernel)
  ⟨base false 0#32 40#32, t, rfl, rfl, h⟩

/-- A command, a refused read and a reset are each a step from a state under the invariants. -/
theorem witness_StepKeepsInvariants :
    ∀ h ∈ [HostStep.access (wrReq .cmd 4#32), .access (readReq 0x38#6), .reset],
      ∃ s t : State, s.regs.Inv ∧ s.pending = [h] ∧ step s = .next t := by
  intro h hm
  refine ⟨asked (at45 0x00B40000#32 0#32) [h], ?_⟩
  have hs : (stateOf (step (asked (at45 0x00B40000#32 0#32) [h]))).isSome = true := by
    revert h
    decide +kernel
  obtain ⟨t, ht⟩ := exists_next hs
  exact ⟨t, inv_45 _ _, rfl, ht⟩

theorem witness_StepNeverFaults : ∃ s : State, s.regs.Inv ∧ s.pending = [.access (wrReq .cmd 2#32)] :=
  ⟨asked (at45 0#32 1#32) [.access (wrReq .cmd 2#32)], inv_45 _ _, rfl⟩

/-- The largest legal code is kept and replaced. -/
theorem witness_StepKeepsErrorCodesLegal :
    ∃ s t : State, s.regs.ErrLegal ∧ s.regs.err = 8#4 ∧ step s = .next t :=
  ⟨asked { State.reset with regs := { Regs.reset with err := 8#4 } } [.access (rdReq .status)], _,
    ⟨by decide, by decide⟩, rfl, rfl⟩

/-- A configured block, an unconfigured one that becomes configured, and one that does not. -/
theorem witness_ConfiguredChangesOnlyByConfigOrReset :
    (∃ (s t : State) (q : Request) (rest : List HostStep), s.pending = .access q :: rest ∧ step s = .next t ∧
      s.regs.configured = true) ∧
    (∃ (s t : State) (q : Request) (rest : List HostStep), s.pending = .access q :: rest ∧ step s = .next t ∧
      s.regs.configured = false ∧ decode q = .instr .config ∧ s.regs.opb = 244#32) ∧
    (∃ (s t : State) (q : Request) (rest : List HostStep), s.pending = .access q :: rest ∧ step s = .next t ∧
      s.regs.configured = false ∧ decode q = .instr .config ∧ s.regs.opb = 245#32) := by
  refine ⟨?_, ?_, ?_⟩
  · obtain ⟨t, h⟩ := exists_next (o := step (asked (base true 16#32 40#32) [.access (wrReq .cmd 1#32)])) (by decide +kernel)
    exact ⟨_, t, _, _, rfl, h, rfl⟩
  · obtain ⟨t, h⟩ := exists_next (o := step (asked (base false 0#32 244#32) [.access (wrReq .cmd 1#32)])) (by decide +kernel)
    exact ⟨_, t, _, _, rfl, h, rfl, by decide, rfl⟩
  · obtain ⟨t, h⟩ := exists_next (o := step (asked (base false 0#32 245#32) [.access (wrReq .cmd 1#32)])) (by decide +kernel)
    exact ⟨_, t, _, _, rfl, h, rfl, by decide, rfl⟩

theorem witness_UnconfiguredRegistersHoldTheResetImage :
    ∃ s t : State, s.regs.configured = false ∧
      s.regs = { Regs.reset with opa := s.regs.opa, opb := s.regs.opb, err := s.regs.err } ∧
      step s = .next t ∧ t.regs.configured = false :=
  ⟨asked (base false 5#32 6#32) [.access (wrReq .opb 9#32)], _, rfl, rfl, rfl, rfl⟩

theorem witness_StepRunsTheDecodedInstruction :
    ∃ (s : State) (q : Request) (rest : List HostStep) (i : Instr), s.pending = .access q :: rest ∧ decode q = .instr i :=
  ⟨asked State.reset [.access (wrReq .cmd 4#32)], wrReq .cmd 4#32, [], .setAngle, rfl, by decide⟩

theorem witness_EveryAccessIsAnsweredInOneStep :
    ∃ (s : State) (q : Request) (rest : List HostStep), s.regs.Inv ∧ s.pending = .access q :: rest :=
  ⟨asked State.reset [.access (wrReq .cmd 4#32)], _, _, inv_reset, rfl⟩

/-- One access for each of the five grounds. -/
theorem witness_BusErrorsChangeNoRegister :
    (∃ q : Request, isWholeWord q = false) ∧ (∃ q : Request, isAligned q = false) ∧
    (∃ q : Request, regAt q.addr = none) ∧
    (∃ (q : Request) (n : RegName), regAt q.addr = some n ∧ n ≠ .cmd ∧ n ≠ .opa ∧ n ≠ .opb ∧ q.access ≠ .read) ∧
    (∃ q : Request, regAt q.addr = some .cmd ∧ q.access = .read) ∧
    ∀ q : Request, ∃ (s : State) (rest : List HostStep), s.pending = .access q :: rest :=
  ⟨⟨{ readReq 0x04#6 with lanes := 0x7#4 }, by decide⟩, ⟨readReq 0x01#6, by decide⟩, ⟨readReq 0x3C#6, by decide⟩,
    ⟨writeReq 0x0C#6 0#32, .status, by decide⟩, ⟨readReq 0x00#6, by decide⟩,
    fun q => ⟨asked State.reset [.access q], [], rfl⟩⟩

/-- The words next to the legal ones. -/
theorem witness_IllegalCommandWordsRaise :
    ∀ w ∈ [0x00000000#32, 0x00000005#32, 0x00000011#32, 0x80000004#32, 0xFFFFFFFF#32],
      (w ≠ 1#32 ∧ w ≠ 2#32 ∧ w ≠ 3#32 ∧ w ≠ 4#32) ∧
        ∃ (s : State) (rest : List HostStep), s.pending = .access (writeReq 0x00#6 w) :: rest :=
  fun w hw => ⟨by simp only [List.mem_cons, List.not_mem_nil, or_false] at hw; casesm* _ ∨ _ <;> subst_vars <;> decide +kernel, asked State.reset [.access (writeReq 0x00#6 w)], [], rfl⟩

theorem witness_PeriodConstant : ∃ f g : Int, 1 ≤ f ∧ f = 1 ∧ 1 ≤ g ∧ g = 245 := ⟨1, 245, by decide⟩

theorem witness_DutyQuantizerTruncates :
    (∃ p u : Int, 0 ≤ p ∧ p ≤ 0 ∧ 1 ≤ u ∧ u ≤ 1) ∧ ∃ p u : Int, 0 ≤ p ∧ p = 2147483647 ∧ 1 ≤ u ∧ u = 244 :=
  ⟨⟨0, 1, by decide⟩, ⟨2147483647, 244, by decide⟩⟩

/-- The operands of V-I13: the widest ranges, at the upper end. -/
theorem witness_InterpolatorIsExactThenTruncated :
    ∃ a amin amax pmin pmax : Int, amin < amax ∧ amin ≤ a ∧ a ≤ amax ∧ 0 ≤ pmin ∧ pmin < pmax :=
  ⟨2147483647, -2147483648, 2147483647, 0, 2147483647, by decide⟩

theorem witness_InterpolatorEndpointsAreExact :
    ∃ amin amax pmin pmax : Int, amin < amax ∧ 0 ≤ pmin ∧ pmin < pmax := ⟨-1, 0, 0, 1, by decide⟩

/-- The operands of V-I9, where the strict clause just applies. -/
theorem witness_InterpolatorIsMonotone :
    ∃ a1 a2 amin amax pmin pmax : Int, amin < amax ∧ 0 ≤ pmin ∧ pmin < pmax ∧ amin ≤ a1 ∧ a1 ≤ a2 ∧ a2 ≤ amax ∧
      amax - amin ≤ (pmax - pmin) * (a2 - a1) ∧ ¬ amax - amin ≤ (pmax - pmin) * (a2 - a1 - 1) :=
  ⟨0, 12, 0, 11796480, 1024000, 2048000, by decide⟩

/-- Below, above, and on both bounds. -/
theorem witness_ClampGoesToTheNearerBound :
    ∃ lo hi : Int, lo < hi ∧ (∃ a, a < lo) ∧ (∃ a, hi < a) ∧ (∃ a, lo ≤ a ∧ a ≤ hi ∧ a = lo) ∧
      (∃ a, lo ≤ a ∧ a ≤ hi ∧ a = hi) :=
  ⟨0, 1, by decide, ⟨-1, by decide⟩, ⟨2, by decide⟩, ⟨0, by decide⟩, ⟨1, by decide⟩⟩

theorem witness_DutyOfEveryPulseInRangeFits :
    (∃ p1 p2 u d1 d2 : Int, p1 ≤ p2 ∧ quant p1 u = .ok d1 ∧ quant p2 u = .ok d2) ∧
    ∃ r : Regs, r.Inv ∧ sint32 r.pmin ≤ sint32 r.pmin ∧ sint32 r.pmin ≤ sint32 r.pmax ∧
      sint32 r.pmax ≤ sint32 r.pmax :=
  ⟨⟨0x000017FF, 0x00001800, 6, 0, 1, by decide, by decide +kernel, by decide +kernel⟩,
    ⟨Regs.reset, inv_reset, by decide⟩⟩

theorem witness_DatapathRangesHold :
    ∃ r : Regs, r.Inv ∧ ∀ a ∈ [sint32 r.amin, sint32 r.amax], sint32 r.amin ≤ a ∧ a ≤ sint32 r.amax :=
  ⟨Regs.reset, inv_reset, by decide⟩

/-- The lowest and highest frequency and channel. -/
theorem witness_ConfigCompletes :
    ∀ ch ∈ [0#32, 15#32], ∀ f ∈ [1#32, 244#32], ∃ s : State, s.regs.opa = ch ∧ s.regs.opb = f ∧
      1 ≤ sint32 s.regs.opb ∧ sint32 s.regs.opb ≤ 244 ∧ 0 ≤ sint32 s.regs.opa ∧ sint32 s.regs.opa ≤ 15 :=
  fun ch hc f hf => ⟨base false ch f, rfl, rfl, by simp only [List.mem_cons, List.not_mem_nil, or_false] at hc hf; casesm* _ ∨ _ <;> subst_vars <;> decide +kernel⟩

theorem witness_ConfigRejections :
    (sint32 (base false 0#32 0#32).regs.opb ≤ 0 ∧ sint32 (base false 0#32 0x80000000#32).regs.opb ≤ 0) ∧
    245 ≤ sint32 (base false 0#32 245#32).regs.opb ∧
    (∃ s : State, 1 ≤ sint32 s.regs.opb ∧ sint32 s.regs.opb ≤ 244 ∧ sint32 s.regs.opa < 0 ∧ s.regs.opa = 0xFFFFFFFF#32) ∧
    ∃ s : State, 1 ≤ sint32 s.regs.opb ∧ sint32 s.regs.opb ≤ 244 ∧ 15 < sint32 s.regs.opa ∧ s.regs.opa = 16#32 :=
  ⟨by decide +kernel, by decide +kernel, ⟨base false 0xFFFFFFFF#32 244#32, by decide +kernel⟩,
    ⟨base true 16#32 1#32, by decide +kernel⟩⟩

theorem witness_SuccessfulConfigEstablishesInvariants :
    ∃ s t : State, exec .config s = .next t ∧ t.regs.err = 0#4 := by
  obtain ⟨t, h⟩ := Option.map_eq_some_iff.mp
    (show (stateOf (exec .config (base false 15#32 244#32))).map (fun t => t.regs.err) = some 0#4 by decide +kernel)
  exact ⟨_, t, next_of_stateOf h.1, h.2⟩

/-- `lo = 0` and the largest legal `hi` at PPU 6 (V-R2, V-R6). -/
theorem witness_SetPulseRangeCompletes :
    ∃ s : State, s.regs.Inv ∧ s.regs.configured = true ∧ 0 ≤ sint32 s.regs.opa ∧
      sint32 s.regs.opa < sint32 s.regs.opb ∧ sint32 s.regs.opb ≤ 4096 * ppuVal s.regs * 1024 - 1 ∧
      s.regs.opa = 0#32 ∧ s.regs.opb = 0x017FFFFF#32 :=
  ⟨at45 0#32 0x017FFFFF#32, inv_45 _ _, rfl, by decide +kernel⟩

/-- V-R3, V-R5, V-R7: each bound just broken. -/
theorem witness_SetPulseRangeRejections :
    (∃ s : State, s.regs.configured = true ∧ sint32 s.regs.opb = sint32 s.regs.opa ∧
      sint32 s.regs.opb ≤ sint32 s.regs.opa) ∧
    (∃ s : State, s.regs.configured = true ∧ sint32 s.regs.opa < 0 ∧ sint32 s.regs.opa = -1) ∧
    ∃ s : State, s.regs.configured = true ∧ s.regs.Inv ∧ 0 ≤ sint32 s.regs.opa ∧
      sint32 s.regs.opa < sint32 s.regs.opb ∧ 4096 * ppuVal s.regs * 1024 ≤ sint32 s.regs.opb ∧
      s.regs.opb = 0x01800000#32 :=
  ⟨⟨at45 0x000FA000#32 0x000FA000#32, by decide⟩, ⟨at45 0xFFFFFFFF#32 0x001F4000#32, by decide⟩,
    ⟨at45 0x000FA000#32 0x01800000#32, rfl, inv_45 _ _, by decide +kernel⟩⟩

/-- The widest and the narrowest range. -/
theorem witness_SetAngleRangeCompletes :
    ∀ p ∈ [(0x80000000#32, 0x7FFFFFFF#32), (0xFFFFFFFF#32, 0x00000000#32)],
      ∃ s : State, s.regs.Inv ∧ s.regs.configured = true ∧ s.regs.opa = p.1 ∧ s.regs.opb = p.2 ∧
        sint32 s.regs.opa < sint32 s.regs.opb :=
  fun p hp => ⟨at45 p.1 p.2, inv_45 _ _, rfl, rfl, rfl, by simp only [List.mem_cons, List.not_mem_nil, or_false] at hp; casesm* _ ∨ _ <;> subst_vars <;> decide +kernel⟩

theorem witness_SetAngleRangeRejections :
    ∃ s : State, s.regs.configured = true ∧ sint32 s.regs.opb ≤ sint32 s.regs.opa ∧ s.regs.opb = s.regs.opa :=
  ⟨at45 0x000A0000#32 0x000A0000#32, by decide⟩

/-- One LSB below, one LSB above, and on both bounds. -/
theorem witness_SetAngleRangeClampsToExactEndpoints :
    (∃ s : State, s.regs.Inv ∧ s.regs.configured = true ∧ sint32 s.regs.opa < sint32 s.regs.opb ∧
      sint32 s.regs.angle < sint32 s.regs.opa) ∧
    (∃ s : State, s.regs.Inv ∧ s.regs.configured = true ∧ sint32 s.regs.opa < sint32 s.regs.opb ∧
      sint32 s.regs.opb < sint32 s.regs.angle) ∧
    (∃ s : State, s.regs.Inv ∧ s.regs.configured = true ∧ sint32 s.regs.opa < sint32 s.regs.opb ∧
      sint32 s.regs.opa ≤ sint32 s.regs.angle ∧ sint32 s.regs.angle ≤ sint32 s.regs.opb ∧
      s.regs.angle = s.regs.opa) ∧
    ∃ s : State, s.regs.Inv ∧ s.regs.configured = true ∧ sint32 s.regs.opa < sint32 s.regs.opb ∧
      sint32 s.regs.opa ≤ sint32 s.regs.angle ∧ sint32 s.regs.angle ≤ sint32 s.regs.opb ∧
      s.regs.angle = s.regs.opb :=
  ⟨⟨at45 0x002D0001#32 0x00C80000#32, inv_45 _ _, by decide⟩, ⟨at45 0#32 0x002CFFFF#32, inv_45 _ _, by decide⟩,
    ⟨at45 0x002D0000#32 0x00C80000#32, inv_45 _ _, by decide⟩, ⟨at45 0#32 0x002D0000#32, inv_45 _ _, by decide⟩⟩

theorem witness_SetAngleCompletes :
    ∀ a ∈ [0x00000000#32, 0x00B40000#32], ∃ s : State, s.regs.Inv ∧ s.regs.configured = true ∧ s.regs.opa = a ∧
      sint32 s.regs.amin ≤ sint32 s.regs.opa ∧ sint32 s.regs.opa ≤ sint32 s.regs.amax :=
  fun a ha => ⟨at45 a 0#32, inv_45 _ _, rfl, rfl, by simp only [List.mem_cons, List.not_mem_nil, or_false] at ha; casesm* _ ∨ _ <;> subst_vars <;> decide +kernel⟩

theorem witness_SetAngleRejections :
    (∃ s : State, s.regs.configured = true ∧ sint32 s.regs.opa < sint32 s.regs.amin ∧ s.regs.opa = 0xFFFFFFFF#32) ∧
    ∃ s : State, s.regs.configured = true ∧ sint32 s.regs.amax < sint32 s.regs.opa ∧ s.regs.opa = 0x00B40001#32 :=
  ⟨⟨at90 0xFFFFFFFF#32 0#32, by decide⟩, ⟨at90 0x00B40001#32 0#32, by decide⟩⟩

theorem witness_SetAngleAtTheBoundsIsExact :
    (∃ s : State, s.regs.Inv ∧ s.regs.configured = true ∧ s.regs.opa = s.regs.amin) ∧
    ∃ s : State, s.regs.Inv ∧ s.regs.configured = true ∧ s.regs.opa = s.regs.amax :=
  ⟨⟨at45 0#32 0#32, inv_45 _ _, rfl, rfl⟩, ⟨at45 0x00B40000#32 0#32, inv_45 _ _, rfl, rfl⟩⟩

theorem witness_SetAngleDoesNotReadOpb :
    ∃ (s t : State) (v : Word), exec .setAngle s = .next t ∧ v ≠ s.regs.opb :=
  let ⟨t, h⟩ := exists_next (o := exec .setAngle (at45 0x005A0000#32 0#32)) (by decide +kernel)
  ⟨at45 0x005A0000#32 0#32, t, 0xFFFFFFFF#32, h, by decide⟩

theorem witness_UnconfiguredCommandsRaiseNotConfigured :
    ∃ s : State, s.regs.configured = false ∧
      ∀ i ∈ [Instr.setPulseRange, .setAngleRange, .setAngle],
        i = .setPulseRange ∨ i = .setAngleRange ∨ i = .setAngle :=
  ⟨State.reset, rfl, by decide⟩

/-- A refused access, and a well-formed write of every command word and of a word on each side. -/
theorem witness_FirstFailingCheckIsReported :
    (∃ (s : State) (q : Request) (rest : List HostStep), s.regs.Inv ∧ s.pending = .access q :: rest ∧
      wellFormedRequest q = false) ∧
    ∀ w ∈ [0#32, 1#32, 2#32, 3#32, 4#32, 5#32],
      ∃ (s : State) (q : Request) (rest : List HostStep), s.regs.Inv ∧ s.pending = .access q :: rest ∧
        wellFormedRequest q = true ∧ q.addr = 0x00#6 ∧ q.access = .write w :=
  ⟨⟨asked State.reset [.access (readReq 0x00#6)], _, _, inv_reset, rfl, by decide⟩,
    fun w hw => ⟨asked (at45 0#32 1#32) [.access (writeReq 0x00#6 w)], _, _, inv_45 _ _, rfl,
      by simp only [List.mem_cons, List.not_mem_nil, or_false] at hw; casesm* _ ∨ _ <;> subst_vars <;> decide +kernel, rfl, rfl⟩⟩

theorem witness_RaisingCommandsWriteOnlyErr :
    ∃ (s t : State) (q : Request) (rest : List HostStep), s.pending = .access q :: rest ∧ q.addr = 0x00#6 ∧
      step s = .next t ∧ t.regs.err ≠ 0#4 := by
  obtain ⟨t, h⟩ := Option.map_eq_some_iff.mp
    (show (stateOf (step (asked (base true 1#32 245#32) [.access (writeReq 0x00#6 1#32)]))).map
      (fun t => t.regs.err) = some 5#4 by decide +kernel)
  exact ⟨_, t, _, _, rfl, rfl, next_of_stateOf h.1, by rw [h.2]; decide⟩

theorem witness_CommandFrames :
    ∀ i ∈ [Instr.config, .setPulseRange, .setAngleRange, .setAngle],
      (i = .config ∨ i = .setPulseRange ∨ i = .setAngleRange ∨ i = .setAngle) ∧
        ∃ s t : State, exec i s = .next t := by
  intro i hi
  have h : (stateOf (exec i (at45 1#32 40#32))).isSome = true := by
    revert i
    decide +kernel
  exact ⟨by revert i; decide, _, exists_next h⟩

/-- A read answered `OK` and one answered `SLVERR`. -/
theorem witness_ReadsHaveNoSideEffects :
    (∃ (s t : State) (q : Request) (rest : List HostStep) (d : Option Word), s.pending = .access q :: rest ∧
      q.access = .read ∧ step s = .next t ∧ t.reply = some { resp := .ok, data := d }) ∧
    ∃ (s t : State) (q : Request) (rest : List HostStep), s.pending = .access q :: rest ∧
      q.access = .read ∧ step s = .next t ∧ t.reply.map Reply.resp = some .slverr :=
  ⟨⟨asked State.reset [.access (readReq 0x04#6)], _, _, _, _, rfl, rfl, rfl, rfl⟩,
    ⟨asked State.reset [.access (readReq 0x38#6)], _, _, _, rfl, rfl, rfl, rfl⟩⟩

theorem witness_StatusLayout : 5 ≤ 5 ∧ 5 ≤ 31 := by decide

theorem witness_OperandsReadBackAcrossACommand :
    ∃ (s a b c : State) (v : Word), exec (.wrOpa v) s = .next a ∧ exec .setAngle a = .next b ∧
      exec .rdOpa b = .next c ∧ ∃ a' b' c' : State, exec (.wrOpb v) s = .next a' ∧ exec .setAngle a' = .next b' ∧
        exec .rdOpb b' = .next c' := by
  obtain ⟨b, hb⟩ := exists_next (o := exec .setAngle
    { at45 7#32 0#32 with reply := some { resp := .ok, data := none } }) (by decide +kernel)
  obtain ⟨b', hb'⟩ := exists_next (o := exec .setAngle
    { at45 0#32 7#32 with reply := some { resp := .ok, data := none } }) (by decide +kernel)
  exact ⟨at45 0#32 0#32, _, b, _, 7#32, rfl, hb, rfl, _, b', _, rfl, hb', rfl⟩

theorem witness_BackToBackWritesAreIdempotent :
    ∀ i ∈ [Instr.config, .setPulseRange, .setAngleRange, .setAngle, .wrOpa 1#32, .wrOpb 1#32],
      (i = .config ∨ i = .setPulseRange ∨ i = .setAngleRange ∨ i = .setAngle ∨
        (∃ v, i = .wrOpa v) ∨ (∃ v, i = .wrOpb v)) ∧ ∃ s t : State, exec i s = .next t := by
  intro i hi
  have h : (stateOf (exec i (at45 1#32 40#32))).isSome = true := by
    revert i
    decide +kernel
  refine ⟨?_, _, exists_next h⟩
  simp only [List.mem_cons, List.not_mem_nil, or_false] at hi
  obtain h | h | h | h | h | h := hi <;> simp [h]

/-- Both commands succeed, in either order. -/
theorem witness_RangeCommandsCommute :
    ∃ (s : State) (plo phi alo ahi : Word), s.regs.Inv ∧ s.regs.configured = true ∧
      (∃ a b : State,
        exec .setPulseRange { s with regs := { s.regs with opa := plo, opb := phi } } = .next a ∧ a.regs.err = 0#4 ∧
        exec .setAngleRange { a with regs := { a.regs with opa := alo, opb := ahi } } = .next b ∧ b.regs.err = 0#4) ∧
      ∃ a c : State,
        exec .setAngleRange { s with regs := { s.regs with opa := alo, opb := ahi } } = .next a ∧ a.regs.err = 0#4 ∧
        exec .setPulseRange { a with regs := { a.regs with opa := plo, opb := phi } } = .next c ∧ c.regs.err = 0#4 := by
  refine ⟨at45 0#32 0#32, 0#32, 0x017FFFFF#32, 0x00640000#32, 0x00C80000#32, inv_45 _ _, rfl, ?_, ?_⟩
  · have h : (stateOf (exec .setPulseRange (at45 0#32 0x017FFFFF#32))).bind (fun a =>
        if a.regs.err = 0#4 then
          (stateOf (exec .setAngleRange { a with regs := { a.regs with opa := 0x00640000#32, opb := 0x00C80000#32 } })).map
            (fun b => b.regs.err)
        else none) = some 0#4 := by decide +kernel
    obtain ⟨a, ha, h⟩ := Option.bind_eq_some_iff.mp h
    split at h
    · rename_i he
      obtain ⟨b, hb, hbe⟩ := Option.map_eq_some_iff.mp h
      exact ⟨a, b, next_of_stateOf ha, he, next_of_stateOf hb, hbe⟩
    · cases h
  · have h : (stateOf (exec .setAngleRange (at45 0x00640000#32 0x00C80000#32))).bind (fun a =>
        if a.regs.err = 0#4 then
          (stateOf (exec .setPulseRange { a with regs := { a.regs with opa := 0#32, opb := 0x017FFFFF#32 } })).map
            (fun b => b.regs.err)
        else none) = some 0#4 := by decide +kernel
    obtain ⟨a, ha, h⟩ := Option.bind_eq_some_iff.mp h
    split at h
    · rename_i he
      obtain ⟨b, hb, hbe⟩ := Option.map_eq_some_iff.mp h
      exact ⟨a, b, next_of_stateOf ha, he, next_of_stateOf hb, hbe⟩
    · cases h

theorem witness_BootSequenceReadsConfigured :
    ∀ ch ∈ [0#32, 15#32], ∀ f ∈ [1#32, 244#32],
      (0 ≤ sint32 ch ∧ sint32 ch ≤ 15 ∧ 1 ≤ sint32 f ∧ sint32 f ≤ 244) ∧
        ∃ (s : State) (rest : List HostStep), s.pending =
          .access (wrReq .opa ch) :: .access (wrReq .opb f) :: .access (wrReq .cmd 1#32) ::
            .access (rdReq .status) :: rest :=
  fun ch hc f hf => ⟨by simp only [List.mem_cons, List.not_mem_nil, or_false] at hc hf; casesm* _ ∨ _ <;> subst_vars <;> decide +kernel,
    asked State.reset [.access (wrReq .opa ch), .access (wrReq .opb f), .access (wrReq .cmd 1#32), .access (rdReq .status)],
    [], rfl⟩

theorem witness_ResetStepLoadsTheImage :
    ∃ (s : State) (rest : List HostStep), s.pending = .reset :: rest ∧ s.regs ≠ Regs.reset :=
  ⟨asked (at90 1#32 2#32) [.reset], [], rfl, by decide⟩

theorem witness_OverlappedAccessIsWholeOrAbsent :
    ∃ (s t : State) (q : Request) (rest : List HostStep), s.pending = .resetDuring q :: rest ∧ step s = .next t := by
  let s := asked (at90 1#32 2#32) [.resetDuring (readReq 0x30#6)]
  have h : ∃ t, step s = .next t := by
    simp only [s, step, performNext, asked, performHostStep]
    split
    · exact ⟨_, rfl⟩
    · exact ⟨_, rfl⟩
  obtain ⟨t, ht⟩ := h
  exact ⟨s, t, _, _, rfl, ht⟩

theorem witness_AfterResetCommandsAreNotConfigured :
    ∀ w ∈ [2#32, 3#32, 4#32], (w = 2#32 ∨ w = 3#32 ∨ w = 4#32) ∧
      ∃ (s : State) (rest : List HostStep), s.pending = .reset :: .access (wrReq .cmd w) :: rest :=
  fun w hw => ⟨by simp only [List.mem_cons, List.not_mem_nil, or_false] at hw; casesm* _ ∨ _ <;> subst_vars <;> decide +kernel, asked (at90 0#32 0#32) [.reset, .access (wrReq .cmd w)], [], rfl⟩

theorem witness_RegistersDependOnRegistersAndAccessOnly :
    ∃ (s s' t : State) (q : Request) (rest rest' : List HostStep), s.regs = s'.regs ∧ s ≠ s' ∧
      s.pending = .access q :: rest ∧ s'.pending = .access q :: rest' ∧ step s = .next t :=
  ⟨asked State.reset [.access (wrReq .opa 1#32)], asked State.reset [.access (wrReq .opa 1#32), .reset], _, _, _, _,
    rfl, by decide, rfl, rfl, rfl⟩

theorem witness_ByteLanesAreLittleEndian : 0 < 8 ∧ 7 < 8 := by decide

/-- Accepted and refused literals of each suffix, the largest accepted angle among them. -/
theorem witness_AssemblerNeverRounds :
    (assembleLit (.deg { mant := 3276799998474121093750, places := 17 })).isSome = true ∧
      (assembleLit (.us { mant := 1000, places := 0 })).isSome = true ∧
      (assembleLit (.ms { mant := 25, places := 1 })).isSome = true ∧
      assembleLit (.deg { mant := 1, places := 4 }) = none ∧
      assembleLit (.us { mant := 1, places := 4 }) = none ∧ assembleLit (.ms { mant := 2097152, places := 3 }) = none := by
  decide +kernel

theorem witness_PseudoInstructionsExpandInOrder :
    (∃ (ch f : Int) (a b : Word), assembleLit (.int ch) = some a ∧ assembleLit (.int f) = some b ∧ ch = -1 ∧ f = 244) ∧
    ∃ (lo hi : Lit) (a b : Word), assembleLit lo = some a ∧ assembleLit hi = some b ∧
      lo = .deg { mant := -90, places := 0 } ∧ hi = .ms { mant := 25, places := 1 } :=
  ⟨⟨-1, 244, 0xFFFFFFFF#32, 244#32, by decide, by decide, rfl, rfl⟩,
    ⟨_, _, 0xFFA60000#32, 0x00271000#32, by decide, by decide, rfl, rfl⟩⟩

end Sys2Proof.Tests
end

section
/-! PROOFS. Scope (00_scope R4): which step the oldest request is, and that a step is refused only where there is none. -/

namespace Sys2Proof.Machine

open Sys2Proof

/-! ### No operation on the host's request is refused -/

@[simp] theorem answerRead_ne_refused (w : Word) (s : State) (r : Refusal) : answerRead w s ≠ .refused r := nofun

@[simp] theorem answerWrite_ne_refused (regs : Regs) (s : State) (r : Refusal) : answerWrite regs s ≠ .refused r := nofun

@[simp] theorem answerBusError_ne_refused (q : Request) (s : State) (r : Refusal) :
    answerBusError q s ≠ .refused r := by
  obtain ⟨d, n, h⟩ := answerBusError_next q s
  simp [h]

@[simp] theorem finishCommand_ne_refused (c : CommandEnd) (s : State) (r : Refusal) :
    finishCommand c s ≠ .refused r := by
  cases c with
  | commit regs => exact answerWrite_ne_refused _ s r
  | raise e => exact answerWrite_ne_refused _ s r
  | fault f => nofun

/-- Every instruction of the table has a meaning: a command ends by the command frame, the others answer the bus. -/
@[simp] theorem exec_ne_refused (i : Instr) (s : State) (r : Refusal) : exec i s ≠ .refused r := by
  cases i
  case config | setPulseRange | setAngleRange | setAngle => exact finishCommand_ne_refused _ s r
  case wrOpa | wrOpb => exact answerWrite_ne_refused _ s r
  all_goals exact answerRead_ne_refused _ s r

theorem performAccess_instr {q : Request} {i : Instr} (s : State) (h : decode q = .instr i) :
    performAccess q s = exec i s := by
  simp [performAccess, h]

theorem performAccess_illegalCommand {q : Request} {w : Word} (s : State) (h : decode q = .illegalCommand w) :
    performAccess q s = finishCommand (.raise .illegalCommand) s := by
  simp [performAccess, h, illegalCommand]

theorem performAccess_busError {q : Request} {e : BusError} (s : State) (h : decode q = .busError e) :
    performAccess q s = answerBusError q s := by
  simp [performAccess, h]

@[simp] theorem performAccess_ne_refused (q : Request) (s : State) (r : Refusal) : performAccess q s ≠ .refused r := by
  cases h : decode q with
  | instr i => simp [performAccess_instr s h]
  | illegalCommand w => simp [performAccess_illegalCommand s h]
  | busError e => simp [performAccess_busError s h]

@[simp] theorem performHostStep_ne_refused (k : HostStep) (s : State) (r : Refusal) :
    performHostStep k s ≠ .refused r := by
  cases k with
  | access q => exact performAccess_ne_refused q s r
  | reset => nofun
  | resetDuring q =>
    simp only [performHostStep]
    split
    · exact performAccess_ne_refused q _ r
    · nofun

/-! ### The step and the oldest request -/

theorem step_nil {s : State} (h : s.pending = []) : step s = .refused .noHostStep := by
  simp [step, performNext, h]

theorem step_cons {s : State} {k : HostStep} {rest : List HostStep} (h : s.pending = k :: rest) :
    step s = performHostStep k { s with pending := rest } := by
  simp [step, performNext, h]

/-- Settles O11: with no request `step` refuses (log entry 2), and no request of the host is itself refused. -/
theorem onlyTheAbsenceOfARequestIsRefused : Obligations.OnlyTheAbsenceOfARequestIsRefused := by
  intro s
  constructor
  · rintro ⟨r, hr⟩
    cases h : s.pending with
    | nil => rfl
    | cons k rest => exact absurd (step_cons h ▸ hr) (performHostStep_ne_refused k _ r)
  · exact fun h => ⟨.noHostStep, step_nil h⟩

/-- Settles O10: the step is the access (R47), and the access is the instruction it decodes to (R40). -/
theorem stepRunsTheDecodedInstruction : Obligations.StepRunsTheDecodedInstruction := by
  intro s q rest i hpending hdecode
  calc step s = performAccess q { s with pending := rest } := step_access hpending
    _ = exec i { s with pending := rest } := performAccess_instr _ hdecode

end Sys2Proof.Machine
end

section
/-! PROOFS. State (10_state): what a command commits and what it leaves, the invariants INV1 to INV8 at reset and under every
step (R31), and what CONFIGURED, the operands and the registers as a whole depend on. -/

namespace Sys2Proof.Machine

open Sys2Proof

/-! ### What each command commits: the inversion lemmas for a success -/

theorem runConfig_commit {r t : Regs} (h : runConfig r = .commit t) :
    0 < operandB r ∧ 1000000 / operandB r / 4096 ≠ 0 ∧
      commitPosition (configuredRegs r (operandA r) (operandB r) (1000000 / operandB r / 4096)) = .commit t := by
  obtain ⟨-, hrun⟩ | ⟨-, -, -, hrun⟩ | ⟨hf, hu, -, -, hrun⟩ := runConfig_cases r <;> rw [hrun] at h
  · cases h
  · cases h
  · exact ⟨hf, hu, h⟩

theorem runSetPulseRange_commit {r t : Regs} (h : runSetPulseRange r = .commit t) :
    0 ≤ operandA r ∧ operandA r < operandB r ∧ (∃ d, quant (operandB r) (ppuVal r) = .ok d ∧ d ≤ 4095) ∧
      commitPosition { r with pmin := r.opa, pmax := r.opb } = .commit t := by
  obtain ⟨-, hrun⟩ | ⟨hlt, h0, ⟨f, -, hrun⟩ | ⟨d, -, -, hrun⟩ | ⟨d, hq, hd, hrun⟩⟩ := runSetPulseRange_cases r <;>
    rw [hrun] at h
  · cases h
  · cases h
  · cases h
  · exact ⟨h0, hlt, ⟨d, hq, hd⟩, by simpa [operandA, operandB] using h⟩

theorem runSetAngleRange_commit {r t : Regs} (h : runSetAngleRange r = .commit t) :
    operandA r < operandB r ∧
      commitPosition { r with
        amin := r.opa, amax := r.opb, angle := word32 (clamp (sint32 r.angle) (operandA r) (operandB r)) } =
          .commit t := by
  obtain ⟨-, hrun⟩ | ⟨hlt, hrun⟩ := runSetAngleRange_cases r <;> rw [hrun] at h
  · cases h
  · exact ⟨hlt, by simpa [operandA, operandB] using h⟩

theorem runSetAngle_commit {r t : Regs} (h : runSetAngle r = .commit t) :
    sint32 r.amin ≤ operandA r ∧ operandA r ≤ sint32 r.amax ∧
      commitPosition { r with angle := r.opa } = .commit t := by
  obtain ⟨-, hrun⟩ | ⟨hlo, hhi, hrun⟩ := runSetAngle_cases r <;> rw [hrun] at h
  · cases h
  · exact ⟨hlo, hhi, by simpa [operandA] using h⟩

/-! ### The invariants -/

/-- INV1, INV2, INV3, INV6 and INV7: what a command establishes of ranges, angle and frequency before PULSE and DUTY are
computed for them. -/
structure Regs.RangesLegal (r : Regs) : Prop where
  angleBounds : sint32 r.amin < sint32 r.amax
  pulseBounds : 0 ≤ sint32 r.pmin ∧ sint32 r.pmin < sint32 r.pmax
  angleInRange : sint32 r.amin ≤ sint32 r.angle ∧ sint32 r.angle ≤ sint32 r.amax
  freqLegal : 1 ≤ sint32 r.freq ∧ sint32 r.freq ≤ 244 ∧ ppuOf (sint32 r.freq) = .ok (ppuVal r)
  dutyBound : ∃ d, quant (sint32 r.pmax) (ppuVal r) = .ok d ∧ d ≤ 4095

/-- The invariants say nothing of OPA, OPB and STATUS. -/
theorem Regs.Inv.with_operands_status {r : Regs} (h : r.Inv) (a b : Word) (e : BitVec 4) (c : Bool) :
    { r with opa := a, opb := b, err := e, configured := c }.Inv :=
  ⟨h.angleBounds, h.pulseBounds, h.angleInRange, h.pulseFresh, h.dutyFresh, h.freqLegal, h.dutyBound, h.pulseInRange⟩

/-- `commitPosition` completes INV1 to INV8: INV4 and INV5 are what it computes, INV8 is INTERP's check and the width of
DUTY. -/
theorem Regs.RangesLegal.inv_of_commit {r t : Regs} (hr : r.RangesLegal) (h : commitPosition r = .commit t) :
    t.Inv := by
  obtain ⟨p, duty, hinterp, hquant, rfl⟩ := commitPosition_commit h
  obtain ⟨-, -, -, hlo, hhi⟩ := interp_ok_iff.mp hinterp
  have hword : sint32 (word32 p) = p := by
    have hmin := sint32_bounds r.pmin
    have hmax := sint32_bounds r.pmax
    exact sint32_word32 (by omega) (by omega)
  have hwidth := duty.isLt
  exact {
    angleBounds := hr.angleBounds
    pulseBounds := hr.pulseBounds
    angleInRange := hr.angleInRange
    pulseFresh := hinterp.trans (congrArg _ hword.symm)
    dutyFresh := (congrArg (quant · (ppuVal r)) hword).trans hquant
    freqLegal := hr.freqLegal
    dutyBound := hr.dutyBound
    pulseInRange := by
      simp only [hword]
      omega }

/-- A frequency with a nonzero period constant lies in `[1, 244]`, and then so does the constant. -/
theorem freq_ppu_bounds {f : Int} (hf : 0 < f) (hu : 1000000 / f / 4096 ≠ 0) :
    f ≤ 244 ∧ 1 ≤ 1000000 / f / 4096 ∧ 1000000 / f / 4096 ≤ 244 := by
  have hperiod : 0 ≤ 1000000 / f := Int.ediv_nonneg (by decide) hf.le
  have hle : 1000000 / f ≤ 1000000 := Int.ediv_le_self f (by decide)
  have hmul : 1000000 / f * f ≤ 1000000 := Int.ediv_mul_le 1000000 hf.ne'
  have hfreq : 4096 * f ≤ 1000000 / f * f := mul_le_mul_of_nonneg_right (by omega) hf.le
  omega

/-- The ranges CONFIG installs are legal for every frequency it accepts (R77, R78). -/
theorem configuredRegs_rangesLegal (r : Regs) (ch : Int) (hf : 0 < operandB r)
    (hu : 1000000 / operandB r / 4096 ≠ 0) :
    (configuredRegs r ch (operandB r) (1000000 / operandB r / 4096)).RangesLegal := by
  obtain ⟨hf244, hu1, hu244⟩ := freq_ppu_bounds hf hu
  have hfreq : sint32 (word32 (operandB r)) = operandB r := sint32_word32 (by omega) (by omega)
  have hppu : ppuVal (configuredRegs r ch (operandB r) (1000000 / operandB r / 4096)) =
      1000000 / operandB r / 4096 := by
    simp only [ppuVal, configuredRegs_ppu, BitVec.toNat_ofInt]
    omega
  exact {
    angleBounds := by simp
    pulseBounds := by simp
    angleInRange := by simp
    freqLegal := by
      rw [hppu, configuredRegs_freq, hfreq]
      exact ⟨hf, hf244, ppuOf_eq hf⟩
    dutyBound := by
      rw [hppu, configuredRegs_pmax, sint32_defaultPulseMax]
      refine ⟨_, quant_ok_iff.mpr ⟨by decide, by omega, rfl⟩, ?_⟩
      exact Int.ediv_le_of_le_mul (by omega) (by omega) }

theorem runConfig_inv {r t : Regs} (h : runConfig r = .commit t) : t.Inv := by
  obtain ⟨hf, hu, hcommit⟩ := runConfig_commit h
  exact (configuredRegs_rangesLegal r _ hf hu).inv_of_commit hcommit

theorem runSetPulseRange_inv {r t : Regs} (hr : r.Inv) (h : runSetPulseRange r = .commit t) : t.Inv := by
  obtain ⟨h0, hlt, hduty, hcommit⟩ := runSetPulseRange_commit h
  have hranges : { r with pmin := r.opa, pmax := r.opb }.RangesLegal :=
    ⟨hr.angleBounds, ⟨h0, hlt⟩, hr.angleInRange, hr.freqLegal, hduty⟩
  exact hranges.inv_of_commit hcommit

theorem runSetAngleRange_inv {r t : Regs} (hr : r.Inv) (h : runSetAngleRange r = .commit t) : t.Inv := by
  obtain ⟨hlt, hcommit⟩ := runSetAngleRange_commit h
  have hclamp := clamp_bounds (a := sint32 r.angle) hlt
  have hangle : sint32 (word32 (clamp (sint32 r.angle) (operandA r) (operandB r))) =
      clamp (sint32 r.angle) (operandA r) (operandB r) := by
    have hlo := sint32_bounds r.opa
    have hhi := sint32_bounds r.opb
    exact sint32_word32 (hlo.1.trans hclamp.1) (hclamp.2.trans hhi.2)
  have hranges : { r with
      amin := r.opa, amax := r.opb,
      angle := word32 (clamp (sint32 r.angle) (operandA r) (operandB r)) }.RangesLegal :=
    ⟨hlt, hr.pulseBounds, hangle.symm ▸ hclamp, hr.freqLegal, hr.dutyBound⟩
  exact hranges.inv_of_commit hcommit

theorem runSetAngle_inv {r t : Regs} (hr : r.Inv) (h : runSetAngle r = .commit t) : t.Inv := by
  obtain ⟨hlo, hhi, hcommit⟩ := runSetAngle_commit h
  have hranges : { r with angle := r.opa }.RangesLegal :=
    ⟨hr.angleBounds, hr.pulseBounds, ⟨hlo, hhi⟩, hr.freqLegal, hr.dutyBound⟩
  exact hranges.inv_of_commit hcommit

theorem exec_keeps_inv {i : Instr} {s t : State} (hs : s.regs.Inv) (h : exec i s = .next t) : t.regs.Inv := by
  obtain hregs | ⟨v, hregs⟩ | ⟨v, hregs⟩ | ⟨e, -, hregs⟩ | ⟨r, hrun, hregs⟩ := exec_regs_cases h <;> rw [hregs]
  · exact hs
  · exact hs.with_operands_status v _ _ _
  · exact hs.with_operands_status _ v _ _
  · exact hs.with_operands_status _ _ (errorCode e) _
  · have hr : r.Inv := by
      obtain hrun | ⟨-, hrun | hrun | hrun⟩ := hrun
      · exact runConfig_inv hrun
      · exact runSetPulseRange_inv hs hrun
      · exact runSetAngleRange_inv hs hrun
      · exact runSetAngle_inv hs hrun
    exact hr.with_operands_status _ _ okCode _

theorem performAccess_keeps_inv {q : Request} {s t : State} (hs : s.regs.Inv) (h : performAccess q s = .next t) :
    t.regs.Inv := by
  obtain ⟨i, -, hexec⟩ | ⟨w, -, rfl⟩ | ⟨e, d, n, -, rfl⟩ := performAccess_cases h
  · exact exec_keeps_inv hs hexec
  · exact hs.with_operands_status _ _ (errorCode .illegalCommand) _
  · exact hs

/-- The reset ranges are legal, and the reset image has the PULSE and DUTY they give: it is a commit of its own ranges. -/
theorem reset_inv : Regs.reset.Inv := by
  have hranges : Regs.reset.RangesLegal :=
    ⟨by decide, by decide, by decide, by decide, 333, by decide, by decide⟩
  exact hranges.inv_of_commit (t := Regs.reset) rfl

/-- Settles O2: reset loads legal ranges and the position computed for them (R31, R34). -/
theorem resetSatisfiesInvariants : Obligations.ResetSatisfiesInvariants := reset_inv

/-- Settles O3 (R31): an access keeps the invariants, as every commit goes through `commitPosition` on legal ranges; a reset
loads the reset image. -/
theorem stepKeepsInvariants : Obligations.StepKeepsInvariants := by
  intro s t hs h
  obtain ⟨q, rest, -, h⟩ | ⟨rest, -, rfl⟩ | ⟨q, rest, -, h | rfl⟩ := step_cases h
  · exact performAccess_keeps_inv (s := { s with pending := rest }) hs h
  · exact reset_inv
  · exact performAccess_keeps_inv (s := { s with pending := .reset :: rest, nFree := s.nFree + 1 }) hs h
  · exact reset_inv

/-! ### The reset image and CONFIG 0, 40 -/

/-- CONFIG 0, 40 commits the reset image, but for the operands and STATUS, from every register file. -/
theorem runConfig_zero_forty {r : Regs} (ha : r.opa = 0#32) (hb : r.opb = 40#32) :
    runConfig r = .commit { Regs.reset with opa := r.opa, opb := r.opb, err := r.err, configured := true } := by
  have hA : operandA r = 0 := by rw [operandA, ha]; rfl
  have hB : operandB r = 40 := by rw [operandB, hb]; rfl
  calc runConfig r = commitPosition (configuredRegs r 0 40 6) := by
        simp [runConfig, hA, hB, ppuOf_eq, Config.channelMax]
    _ = .commit { Regs.reset with opa := r.opa, opb := r.opb, err := r.err, configured := true } := by
        have hppu : ppuVal (configuredRegs r 0 40 6) = 6 := rfl
        have hinterp : interp 0 0 11796480 1024000 2048000 = .ok 1024000 := by decide
        have hquant : quant 1024000 6 = .ok 166 := by decide
        have hduty : dutyBits 166 = .ok 0x0A6#12 := by decide
        simp only [commitPosition, hppu, configuredRegs_angle, configuredRegs_amin, configuredRegs_amax,
          configuredRegs_pmin, configuredRegs_pmax, sint32_defaultAngleMin, sint32_defaultAngleMax,
          sint32_defaultPulseMin, sint32_defaultPulseMax, hinterp, hquant, hduty]
        rfl

/-- Settles O1: the reset image is the table of R34, and CONFIG 0, 40 answers with it (log entry 17). -/
theorem resetImage : Obligations.ResetImage := by
  refine ⟨rfl, fun s t ha hb h => ?_⟩
  simp only [exec, execConfig, runConfig_zero_forty ha hb] at h
  cases answerWrite_next h
  rfl

/-! ### The frames of the commands -/

/-- A command with the NotConfigured check commits in a configured state only, or raises. -/
theorem finishCommand_whenConfigured_next {c : CommandEnd} {s t : State}
    (h : finishCommand (whenConfigured s.regs c) s = .next t) :
    (∃ r, s.regs.configured = true ∧ c = .commit r ∧ t.regs = { r with err := okCode }) ∨
    (∃ e, t.regs = raiseError e s.regs) := by
  cases hc : s.regs.configured with
  | true =>
    rw [whenConfigured_true c hc] at h
    obtain ⟨r, hr, rfl⟩ | ⟨e, -, rfl⟩ := finishCommand_next h
    · exact .inl ⟨r, rfl, hr, rfl⟩
    · exact .inr ⟨e, rfl⟩
  | false =>
    rw [whenConfigured_false c hc] at h
    cases answerWrite_next h
    exact .inr ⟨_, rfl⟩

/-- CONFIG commits, and then ERR is 0 and CONFIGURED 1 and the operands stay, or raises. -/
theorem config_regs {s t : State} (h : exec .config s = .next t) :
    (t.regs.opa = s.regs.opa ∧ t.regs.opb = s.regs.opb ∧ t.regs.err = okCode ∧ t.regs.configured = true) ∨
    (∃ e, t.regs = raiseError e s.regs) := by
  obtain ⟨r, hr, rfl⟩ | ⟨e, -, rfl⟩ := finishCommand_next h
  · obtain ⟨-, -, hcommit⟩ := runConfig_commit hr
    obtain ⟨p, d, rfl⟩ := commitPosition_keeps hcommit
    exact .inl ⟨rfl, rfl, rfl, rfl⟩
  · exact .inr ⟨e, rfl⟩

theorem setPulseRange_frame {s t : State} (h : exec .setPulseRange s = .next t) :
    t.regs = { s.regs with
      pmin := t.regs.pmin, pmax := t.regs.pmax, pulse := t.regs.pulse, duty := t.regs.duty, err := t.regs.err } := by
  obtain ⟨r, -, hr, hregs⟩ | ⟨e, hregs⟩ := finishCommand_whenConfigured_next h <;> rw [hregs]
  · obtain ⟨-, -, -, hcommit⟩ := runSetPulseRange_commit hr
    obtain ⟨p, d, rfl⟩ := commitPosition_keeps hcommit
    rfl
  · rfl

theorem setAngleRange_frame {s t : State} (h : exec .setAngleRange s = .next t) :
    t.regs = { s.regs with
      amin := t.regs.amin, amax := t.regs.amax, angle := t.regs.angle, pulse := t.regs.pulse, duty := t.regs.duty
      err := t.regs.err } := by
  obtain ⟨r, -, hr, hregs⟩ | ⟨e, hregs⟩ := finishCommand_whenConfigured_next h <;> rw [hregs]
  · obtain ⟨-, hcommit⟩ := runSetAngleRange_commit hr
    obtain ⟨p, d, rfl⟩ := commitPosition_keeps hcommit
    rfl
  · rfl

theorem setAngle_frame {s t : State} (h : exec .setAngle s = .next t) :
    t.regs = { s.regs with
      angle := t.regs.angle, pulse := t.regs.pulse, duty := t.regs.duty, err := t.regs.err } := by
  obtain ⟨r, -, hr, hregs⟩ | ⟨e, hregs⟩ := finishCommand_whenConfigured_next h <;> rw [hregs]
  · obtain ⟨-, -, hcommit⟩ := runSetAngle_commit hr
    obtain ⟨p, d, rfl⟩ := commitPosition_keeps hcommit
    rfl
  · rfl

/-- No command writes an operand register (R13, R14). -/
theorem command_keeps_operands {i : Instr} {s t : State}
    (hi : i = .config ∨ i = .setPulseRange ∨ i = .setAngleRange ∨ i = .setAngle) (h : exec i s = .next t) :
    t.regs.opa = s.regs.opa ∧ t.regs.opb = s.regs.opb := by
  obtain rfl | rfl | rfl | rfl := hi
  · obtain ⟨ha, hb, -, -⟩ | ⟨e, hregs⟩ := config_regs h
    · exact ⟨ha, hb⟩
    · simp [hregs]
  · rw [setPulseRange_frame h]; exact ⟨rfl, rfl⟩
  · rw [setAngleRange_frame h]; exact ⟨rfl, rfl⟩
  · rw [setAngle_frame h]; exact ⟨rfl, rfl⟩

/-- Settles O39: each command writes its own ranges and angle, PULSE, DUTY and ERR, and no operand (R11, R12). -/
theorem commandFrames : Obligations.CommandFrames := by
  refine fun s t => ⟨fun i hi h => ?_, setPulseRange_frame, setAngleRange_frame, setAngle_frame⟩
  obtain ⟨ha, hb⟩ := command_keeps_operands hi h
  obtain ⟨hpending, hfree, -⟩ := exec_next_frame h
  exact ⟨ha, hb, hpending, hfree⟩

/-- Settles O44: the write stores the word, no command writes an operand, and the read answers what is there. -/
theorem operandsReadBackAcrossACommand : Obligations.OperandsReadBackAcrossACommand := by
  intro s a b c v i hi
  constructor <;> intro hwrite hcommand hread <;> obtain ⟨ha, hb⟩ := command_keeps_operands hi hcommand
  · cases answerWrite_next hwrite
    cases answerRead_next hread
    simp [ha]
  · cases answerWrite_next hwrite
    cases answerRead_next hread
    simp [hb]

/-! ### CONFIGURED -/

theorem errorCode_ne_okCode (e : CommandError) : errorCode e ≠ okCode := by
  cases e <;> decide

theorem exec_keeps_configured {i : Instr} {s t : State} (hi : i ≠ .config) (h : exec i s = .next t) :
    t.regs.configured = s.regs.configured := by
  cases i
  case config => exact absurd rfl hi
  case setPulseRange => rw [setPulseRange_frame h]
  case setAngleRange => rw [setAngleRange_frame h]
  case setAngle => rw [setAngle_frame h]
  case wrOpa | wrOpb =>
    cases answerWrite_next h
    rfl
  all_goals
    cases answerRead_next h
    rfl

/-- An access is a successful CONFIG and sets CONFIGURED, or is none and leaves it. -/
theorem performAccess_configured {q : Request} {s t : State} (h : performAccess q s = .next t) :
    (decode q = .instr .config ∧ t.regs.err = okCode ∧ t.regs.configured = true) ∨
    (¬ (decode q = .instr .config ∧ t.regs.err = okCode) ∧ t.regs.configured = s.regs.configured) := by
  obtain ⟨i, hd, hexec⟩ | ⟨w, hd, rfl⟩ | ⟨e, d, n, hd, rfl⟩ := performAccess_cases h <;> rw [hd]
  · by_cases hi : i = .config
    · subst hi
      obtain ⟨-, -, herr, hc⟩ | ⟨e, hregs⟩ := config_regs hexec
      · exact .inl ⟨rfl, herr, hc⟩
      · exact .inr (by simp [hregs, errorCode_ne_okCode])
    · exact .inr ⟨by simp [hi], exec_keeps_configured hi hexec⟩
  · exact .inr (by simp)
  · exact .inr (by simp)

/-- Settles O6: a successful CONFIG is the one access that writes CONFIGURED, and it writes 1 (R28). -/
theorem configuredChangesOnlyByConfigOrReset : Obligations.ConfiguredChangesOnlyByConfigOrReset := by
  intro s t q rest hpending h
  rw [step_access hpending] at h
  obtain ⟨hd, herr, hc⟩ | ⟨hno, hc⟩ := performAccess_configured h
  · exact ⟨fun _ => hc, fun _ => ⟨fun _ => ⟨hd, herr⟩, fun _ => hc⟩⟩
  · refine ⟨fun hs => hc.trans hs, fun hs => ⟨fun ht => ?_, fun hyes => absurd hyes hno⟩⟩
    rw [hc, hs] at ht
    cases ht

/-! ### The registers depend on the registers and the access alone -/

section
variable {s s' t : State} (hregs : s.regs = s'.regs)
include hregs

theorem answerRead_regs_congr (f : Regs → Word) (h : answerRead (f s.regs) s = .next t) :
    ∃ t', answerRead (f s'.regs) s' = .next t' ∧ t'.regs = t.regs := by
  cases answerRead_next h
  exact ⟨_, rfl, hregs.symm⟩

theorem answerWrite_regs_congr (f : Regs → Regs) (h : answerWrite (f s.regs) s = .next t) :
    ∃ t', answerWrite (f s'.regs) s' = .next t' ∧ t'.regs = t.regs := by
  cases answerWrite_next h
  exact ⟨_, rfl, congrArg f hregs.symm⟩

theorem finishCommand_regs_congr (c : Regs → CommandEnd) (h : finishCommand (c s.regs) s = .next t) :
    ∃ t', finishCommand (c s'.regs) s' = .next t' ∧ t'.regs = t.regs := by
  rw [hregs] at h
  obtain ⟨r, hr, rfl⟩ | ⟨e, he, rfl⟩ := finishCommand_next h
  · rw [hr]
    exact ⟨_, finishCommand_commit r s', rfl⟩
  · rw [he]
    exact ⟨_, finishCommand_raise e s', congrArg (raiseError e) hregs.symm⟩

/-- Every instruction's answer is a function of the registers, put on the state by one of the three operations above. -/
theorem exec_regs_congr {i : Instr} (h : exec i s = .next t) : ∃ t', exec i s' = .next t' ∧ t'.regs = t.regs := by
  cases i with
  | config => exact finishCommand_regs_congr hregs runConfig h
  | setPulseRange => exact finishCommand_regs_congr hregs (fun r => whenConfigured r (runSetPulseRange r)) h
  | setAngleRange => exact finishCommand_regs_congr hregs (fun r => whenConfigured r (runSetAngleRange r)) h
  | setAngle => exact finishCommand_regs_congr hregs (fun r => whenConfigured r (runSetAngle r)) h
  | wrOpa v => exact answerWrite_regs_congr hregs (fun r => { r with opa := v }) h
  | wrOpb v => exact answerWrite_regs_congr hregs (fun r => { r with opb := v }) h
  | rdOpa => exact answerRead_regs_congr hregs Regs.opa h
  | rdOpb => exact answerRead_regs_congr hregs Regs.opb h
  | rdStatus => exact answerRead_regs_congr hregs statusWord h
  | rdChannel => exact answerRead_regs_congr hregs (fun r => zext32 r.channel) h
  | rdFreq => exact answerRead_regs_congr hregs Regs.freq h
  | rdPpu => exact answerRead_regs_congr hregs (fun r => zext32 r.ppu) h
  | rdPmin => exact answerRead_regs_congr hregs Regs.pmin h
  | rdPmax => exact answerRead_regs_congr hregs Regs.pmax h
  | rdAmin => exact answerRead_regs_congr hregs Regs.amin h
  | rdAmax => exact answerRead_regs_congr hregs Regs.amax h
  | rdAngle => exact answerRead_regs_congr hregs Regs.angle h
  | rdPulse => exact answerRead_regs_congr hregs Regs.pulse h
  | rdDuty => exact answerRead_regs_congr hregs (fun r => zext32 r.duty) h

theorem performAccess_regs_congr {q : Request} (h : performAccess q s = .next t) :
    ∃ t', performAccess q s' = .next t' ∧ t'.regs = t.regs := by
  obtain ⟨i, hd, hexec⟩ | ⟨w, hd, rfl⟩ | ⟨e, d, n, hd, rfl⟩ := performAccess_cases h
  · rw [performAccess_instr s' hd]
    exact exec_regs_congr hregs hexec
  · rw [performAccess_illegalCommand s' hd]
    exact ⟨_, finishCommand_raise .illegalCommand s', congrArg (raiseError .illegalCommand) hregs.symm⟩
  · rw [performAccess_busError s' hd]
    obtain ⟨d', n', hanswer⟩ := answerBusError_next q s'
    exact ⟨_, hanswer, hregs.symm⟩

end

/-- Settles O51: the step is the access, and an access reads no part of the state but the registers (R32, R40). -/
theorem registersDependOnRegistersAndAccessOnly : Obligations.RegistersDependOnRegistersAndAccessOnly := by
  intro s s' t q rest rest' hregs hpending hpending' h
  rw [step_access hpending] at h
  rw [step_access hpending']
  exact performAccess_regs_congr (s := { s with pending := rest }) (s' := { s' with pending := rest' }) hregs h

/-! ### STATUS -/

/-- Bit `k` of STATUS: ERR below bit 4, CONFIGURED at bit 4, zero above (R26). -/
theorem statusWord_getLsbD (r : Regs) (k : Nat) :
    (statusWord r).getLsbD k = if k < 4 then r.err.getLsbD k else if k = 4 then r.configured else false := by
  simp only [statusWord, BitVec.getLsbD_append, BitVec.getLsbD_ofBool, BitVec.getLsbD_zero]
  obtain hlt | rfl | hgt := lt_trichotomy k 4
  · rw [if_pos (by omega), if_pos hlt, if_pos hlt]
  · simp
  · rw [if_neg (by omega), if_neg (by omega), if_neg (by omega)]

/-- Settles O42: the layout bit by bit (R26). -/
theorem statusLayout : Obligations.StatusLayout := by
  intro r
  refine ⟨BitVec.eq_of_getLsbD_eq fun k hk => ?_, ?_, fun k hk => ?_⟩
  · simp [statusWord_getLsbD, hk]
  · rw [statusWord_getLsbD, if_neg (by decide), if_pos rfl]
  · rw [statusWord_getLsbD, if_neg (by omega), if_neg (by omega)]

end Sys2Proof.Machine
end

section
/-! PROOFS. Memory (20_memory): the decoder against the encoder and the register map, what an access answers, reads without
side effects, repeated writes, and the byte lanes. -/

namespace Sys2Proof.Machine

open Sys2Proof

/-! ### The decoder, the encoder and the register map (R36 to R42, R61) -/

theorem eq_readReq {q : Request} (hw : isWholeWord q = true) (h : q.access = .read) : q = readReq q.addr := by
  obtain ⟨access, addr, size, lanes⟩ := q
  obtain ⟨rfl, rfl⟩ := whole_iff.mp hw
  cases h
  rfl

theorem eq_writeReq {q : Request} {v : Word} (hw : isWholeWord q = true) (h : q.access = .write v) :
    q = writeReq q.addr v := by
  obtain ⟨access, addr, size, lanes⟩ := q
  obtain ⟨rfl, rfl⟩ := whole_iff.mp hw
  cases h
  rfl

theorem mapAllows_read {q : Request} (h : q.access = .read) : mapAllows q = (regAt q.addr).any hostReads := by
  unfold mapAllows
  cases regAt q.addr <;> simp [h]

theorem mapAllows_write {q : Request} {v : Word} (h : q.access = .write v) :
    mapAllows q = (regAt q.addr).any hostWrites := by
  unfold mapAllows
  cases regAt q.addr <;> simp [h]

theorem mapAllows_unmapped {q : Request} (h : q.addr = 0x38#6 ∨ q.addr = 0x3C#6) : mapAllows q = false := by
  have hnone : regAt q.addr = none := by
    obtain h | h := h <;> rw [h] <;> rfl
  simp [mapAllows, hnone]

/-- The host access column of R36 in the read direction, against the BUS rows of R61. -/
theorem decodeRead_none {a : Offset} (h : decodeRead a = none) : (regAt a).any hostReads = false := by
  revert a
  decide

/-- The host access column of R36 in the write direction. -/
theorem hostWrites_at (a : Offset) : (regAt a).any hostWrites = (a == 0x00#6 || a == 0x04#6 || a == 0x08#6) := by
  revert a
  decide

theorem encode_of_decodeCommand {w : Word} {i : Instr} (h : decodeCommand w = some i) :
    encode i = writeReq 0x00#6 w := by
  obtain ⟨rfl, rfl⟩ | ⟨rfl, rfl⟩ | ⟨rfl, rfl⟩ | ⟨rfl, rfl⟩ := decodeCommand_some_iff.mp h <;> rfl

/-- What a whole aligned write decodes to, by its offset. -/
theorem decodeWrite_cases (a : Offset) (v : Word) :
    (∃ i, decodeWrite a v = .instr i ∧ writeReq a v = encode i) ∨
    (a = 0x00#6 ∧ decodeWrite a v = .illegalCommand v) ∨
    (decodeWrite a v = .busError .writeToReadOnly ∧ (regAt a).any hostWrites = false) := by
  unfold decodeWrite
  split_ifs with hopa hopb hcmd
  · exact .inl ⟨_, rfl, by rw [hopa]; rfl⟩
  · exact .inl ⟨_, rfl, by rw [hopb]; rfl⟩
  · cases hc : decodeCommand v with
    | some i => exact .inl ⟨i, rfl, by rw [hcmd, encode_of_decodeCommand hc]⟩
    | none => exact .inr (.inl ⟨hcmd, rfl⟩)
  · exact .inr (.inr ⟨rfl, by simp [hostWrites_at, hopa, hopb, hcmd]⟩)

/-- Everything an access can decode to, and what the access then is: the checks of R40 in their order. -/
theorem decode_cases (q : Request) :
    (∃ i, decode q = .instr i ∧ q = encode i) ∨
    (∃ w, decode q = .illegalCommand w ∧ q = writeReq 0x00#6 w) ∨
    (∃ e, decode q = .busError e ∧ wellFormedRequest q = false) := by
  cases hw : isWholeWord q
  case false => exact .inr (.inr ⟨.partialAccess, by simp [decode, hw], by simp [wellFormedRequest, hw]⟩)
  cases ha : isAligned q
  case false => exact .inr (.inr ⟨.misaligned, by simp [decode, hw, ha], by simp [wellFormedRequest, ha]⟩)
  by_cases hm : q.addr = 0x38#6 ∨ q.addr = 0x3C#6
  · exact .inr (.inr ⟨.unmapped, by simp [decode, hw, ha, hm], by simp [wellFormedRequest, mapAllows_unmapped hm]⟩)
  cases hacc : q.access with
  | read =>
    cases hr : decodeRead q.addr with
    | some i =>
      exact .inl ⟨i, by simp [decode, hw, ha, hm, hacc, hr], (eq_readReq hw hacc).trans (encode_of_decodeRead hr).symm⟩
    | none =>
      exact .inr (.inr ⟨.readOfCmd, by simp [decode, hw, ha, hm, hacc, hr],
        by simp [wellFormedRequest, mapAllows_read hacc, decodeRead_none hr]⟩)
  | write v =>
    have hd : decode q = decodeWrite q.addr v := by simp [decode, hw, ha, hm, hacc]
    have hq := eq_writeReq hw hacc
    rw [hd]
    obtain ⟨i, hi, henc⟩ | ⟨h0, hi⟩ | ⟨hi, hno⟩ := decodeWrite_cases q.addr v
    · exact .inl ⟨i, hi, hq.trans henc⟩
    · exact .inr (.inl ⟨v, hi, h0 ▸ hq⟩)
    · exact .inr (.inr ⟨_, hi, by simp [wellFormedRequest, mapAllows_write hacc, hno]⟩)

theorem decode_writeReq {a : Offset} (v : Word) (ha : alignField a = 0#2) (hm : ¬ (a = 0x38#6 ∨ a = 0x3C#6)) :
    decode (writeReq a v) = decodeWrite a v := by
  simp [decode, isWholeWord, isAligned, writeReq, ha, hm]

theorem wellFormedRequest_writeReq (a : Offset) (v : Word) :
    wellFormedRequest (writeReq a v) = (alignField a == 0#2 && (regAt a).any hostWrites) := by
  rw [wellFormedRequest, mapAllows_write (q := writeReq a v) rfl]
  rfl

@[simp] theorem decode_encode (i : Instr) : decode (encode i) = .instr i := by
  cases i
  case wrOpa v | wrOpb v => exact decode_writeReq v (by decide) (by decide)
  all_goals rfl

@[simp] theorem wellFormedRequest_encode (i : Instr) : wellFormedRequest (encode i) = true := by
  cases i
  case wrOpa v | wrOpb v => exact (wellFormedRequest_writeReq _ v).trans (by decide)
  all_goals rfl

@[simp] theorem wellFormedRequest_write_cmd (w : Word) : wellFormedRequest (writeReq 0x00#6 w) = true :=
  (wellFormedRequest_writeReq _ w).trans (by decide)

/-- Settles O8: encoding is undone by decoding, and an access that decodes to an instruction is its encoding (R55, R61). -/
theorem decodeAndEncodeAgree : Obligations.DecodeAndEncodeAgree := by
  intro q i
  constructor
  · intro h
    obtain ⟨j, hd, hq⟩ | ⟨w, hd, -⟩ | ⟨e, hd, -⟩ := decode_cases q <;> rw [h] at hd <;> cases hd
    exact hq
  · rintro rfl
    exact decode_encode i

/-- Settles O14: an access that is no bus error is an encoding or a write to CMD, and those are well formed (R36, R40;
log entry 9). -/
theorem busErrorsAreExactlyTheIllFormedAccesses : Obligations.BusErrorsAreExactlyTheIllFormedAccesses := by
  intro q
  obtain ⟨i, hd, hq⟩ | ⟨w, hd, hq⟩ | ⟨e, hd, hwf⟩ := decode_cases q
  · have hwf : wellFormedRequest q = true := hq ▸ wellFormedRequest_encode i
    simp [hd, hwf]
  · have hwf : wellFormedRequest q = true := hq ▸ wellFormedRequest_write_cmd w
    simp [hd, hwf]
  · simp [hd, hwf]

/-! ### What an instruction answers the host, and reads without side effects (R40, R43) -/

/-- A read instruction answers the value of the register at its offset. -/
theorem exec_read {i : Instr} (h : (encode i).access = .read) (s : State) :
    ∃ n w, regAt (encode i).addr = some n ∧ readValue s.regs n = some w ∧ exec i s = answerRead w s := by
  cases i
  case config | setPulseRange | setAngleRange | setAngle | wrOpa | wrOpb => cases h
  all_goals exact ⟨_, _, rfl, rfl, rfl⟩

/-- A command or an operand write carries no data back. -/
theorem exec_write_reply {i : Instr} {s t : State} (hi : (encode i).access ≠ .read) (h : exec i s = .next t) :
    t.reply = some { resp := .ok, data := none } := by
  cases i
  case config | setPulseRange | setAngleRange | setAngle =>
    obtain ⟨r, -, rfl⟩ | ⟨e, -, rfl⟩ := finishCommand_next h <;> rfl
  case wrOpa | wrOpb =>
    cases answerWrite_next h
    rfl
  all_goals exact absurd rfl hi

/-- Settles O41: an access that reads is a read instruction or a bus error, and neither writes a register (R43). -/
theorem readsHaveNoSideEffects : Obligations.ReadsHaveNoSideEffects := by
  intro s t q rest hpending hread h
  rw [step_access hpending] at h
  obtain ⟨i, hd, hq⟩ | ⟨w, -, rfl⟩ | ⟨e, hd, -⟩ := decode_cases q
  · rw [performAccess_instr _ hd] at h
    subst hq
    obtain ⟨n, w, hreg, hvalue, hexec⟩ := exec_read hread { s with pending := rest }
    rw [hexec] at h
    cases answerRead_next h
    refine ⟨rfl, rfl, fun d hreply => ⟨n, w, hreg, hvalue, ?_⟩⟩
    simpa using hreply.symm
  · cases hread
  · rw [performAccess_busError _ hd] at h
    obtain ⟨d, n, hanswer⟩ := answerBusError_next q { s with pending := rest }
    rw [hanswer] at h
    cases h
    exact ⟨rfl, rfl, nofun⟩

/-! ### Under the invariants no command reaches a fault, so every access is answered (R40, R45, R68, R73) -/

theorem Regs.Inv.ppu_pos {r : Regs} (h : r.Inv) : 0 < ppuVal r := (quant_ok_iff.mp h.dutyFresh).2.1

/-- Legal ranges have a position: `commitPosition` commits it. -/
theorem Regs.RangesLegal.commitPosition_commits {r : Regs} (h : r.RangesLegal) : ∃ t, commitPosition r = .commit t := by
  obtain ⟨d, hquant, hd⟩ := h.dutyBound
  obtain ⟨-, hppu, rfl⟩ := quant_ok_iff.mp hquant
  exact ⟨_, commitPosition_eq h.angleBounds h.angleInRange.1 h.angleInRange.2 h.pulseBounds.1 h.pulseBounds.2 hppu hd⟩

theorem runConfig_ne_fault (r : Regs) (f : Fault) : runConfig r ≠ .fault f := by
  obtain ⟨-, h⟩ | ⟨-, -, -, h⟩ | ⟨hf, hu, -, -, h⟩ := runConfig_cases r <;> rw [h]
  · nofun
  · nofun
  · obtain ⟨t, ht⟩ := (configuredRegs_rangesLegal r (operandA r) hf hu).commitPosition_commits
    rw [ht]
    nofun

theorem runSetPulseRange_ne_fault {r : Regs} (hr : r.Inv) (f : Fault) : runSetPulseRange r ≠ .fault f := by
  obtain ⟨-, h⟩ | ⟨hlt, h0, ⟨f', hquant, -⟩ | ⟨d, -, -, h⟩ | ⟨d, hquant, hd, h⟩⟩ := runSetPulseRange_cases r
  · rw [h]
    nofun
  · have hok := quant_ok_iff.mpr ⟨h0.trans hlt.le, hr.ppu_pos, rfl⟩
    rw [hquant] at hok
    cases hok
  · rw [h]
    nofun
  · simp only [operandA, operandB, word32_sint32] at h
    have hranges : { r with pmin := r.opa, pmax := r.opb }.RangesLegal :=
      ⟨hr.angleBounds, ⟨h0, hlt⟩, hr.angleInRange, hr.freqLegal, d, hquant, hd⟩
    obtain ⟨t, ht⟩ := hranges.commitPosition_commits
    rw [h, ht]
    nofun

/-- A value clamped between the operands is between words, so the ANGLE register holds it whole. -/
theorem sint32_word32_clamp {r : Regs} (h : operandA r < operandB r) (a : Int) :
    sint32 (word32 (clamp a (operandA r) (operandB r))) = clamp a (operandA r) (operandB r) := by
  obtain ⟨hlo, hhi⟩ := clamp_bounds (a := a) h
  exact sint32_word32 ((sint32_bounds r.opa).1.trans hlo) (hhi.trans (sint32_bounds r.opb).2)

theorem runSetAngleRange_ne_fault {r : Regs} (hr : r.Inv) (f : Fault) : runSetAngleRange r ≠ .fault f := by
  obtain ⟨-, h⟩ | ⟨hlt, h⟩ := runSetAngleRange_cases r <;> rw [h]
  · nofun
  · have hranges : { r with
        amin := word32 (operandA r), amax := word32 (operandB r),
        angle := word32 (clamp (sint32 r.angle) (operandA r) (operandB r)) }.RangesLegal := {
      angleBounds := by simpa [operandA, operandB] using hlt
      pulseBounds := hr.pulseBounds
      angleInRange := by
        rw [sint32_word32_clamp hlt]
        simpa [operandA, operandB] using clamp_bounds hlt
      freqLegal := hr.freqLegal
      dutyBound := hr.dutyBound }
    obtain ⟨t, ht⟩ := hranges.commitPosition_commits
    rw [ht]
    nofun

theorem runSetAngle_ne_fault {r : Regs} (hr : r.Inv) (f : Fault) : runSetAngle r ≠ .fault f := by
  obtain ⟨-, h⟩ | ⟨hlo, hhi, h⟩ := runSetAngle_cases r <;> rw [h]
  · nofun
  · have hranges : { r with angle := word32 (operandA r) }.RangesLegal :=
      ⟨hr.angleBounds, hr.pulseBounds, by simpa [operandA] using And.intro hlo hhi, hr.freqLegal, hr.dutyBound⟩
    obtain ⟨t, ht⟩ := hranges.commitPosition_commits
    rw [ht]
    nofun

theorem whenConfigured_ne_fault {r : Regs} {c : CommandEnd} {f : Fault} (h : c ≠ .fault f) :
    whenConfigured r c ≠ .fault f := by
  unfold whenConfigured
  split
  · exact h
  · nofun

theorem finishCommand_completes {c : CommandEnd} (h : ∀ f, c ≠ .fault f) (s : State) :
    ∃ t, finishCommand c s = .next t := by
  cases c with
  | commit r => exact ⟨_, rfl⟩
  | raise e => exact ⟨_, rfl⟩
  | fault f => exact absurd rfl (h f)

/-- Under the invariants every instruction completes. -/
theorem exec_completes (i : Instr) {s : State} (hs : s.regs.Inv) : ∃ t, exec i s = .next t := by
  cases i
  case config => exact finishCommand_completes (runConfig_ne_fault s.regs) s
  case setPulseRange =>
    exact finishCommand_completes (fun f => whenConfigured_ne_fault (runSetPulseRange_ne_fault hs f)) s
  case setAngleRange =>
    exact finishCommand_completes (fun f => whenConfigured_ne_fault (runSetAngleRange_ne_fault hs f)) s
  case setAngle =>
    exact finishCommand_completes (fun f => whenConfigured_ne_fault (runSetAngle_ne_fault hs f)) s
  all_goals exact ⟨_, rfl⟩

/-- What an instruction answers: `OK`, with data exactly when it is a read. -/
theorem exec_reply {i : Instr} {s t : State} (h : exec i s = .next t) :
    ∃ d, t.reply = some { resp := .ok, data := d } ∧ (d.isSome = true ↔ (encode i).access = .read) := by
  by_cases hread : (encode i).access = .read
  · obtain ⟨n, w, -, -, hexec⟩ := exec_read hread s
    rw [hexec] at h
    cases answerRead_next h
    exact ⟨some w, rfl, by simp [hread]⟩
  · exact ⟨none, exec_write_reply hread h, by simp [hread]⟩

/-- What a bus error answers: `SLVERR`, with data exactly when the access is a read (log entry 4). -/
theorem answerBusError_reply (q : Request) (s : State) :
    ∃ t d, answerBusError q s = .next t ∧ t.pending = s.pending ∧ t.reply = some { resp := .slverr, data := d } ∧
      (d.isSome = true ↔ q.access = .read) := by
  unfold answerBusError
  split <;> rename_i hacc
  · exact ⟨_, _, rfl, rfl, rfl, by simp [hacc]⟩
  · exact ⟨_, _, rfl, rfl, rfl, by simp [hacc]⟩

/-- Settles O12: an encoding completes and is answered `OK`, as is a write to CMD of an illegal word; every other access is
ill formed and answered `SLVERR` (R40; log entries 4 and 9). -/
theorem everyAccessIsAnsweredInOneStep : Obligations.EveryAccessIsAnsweredInOneStep := by
  intro s q rest hs hpending
  rw [step_access hpending]
  obtain ⟨i, hd, hq⟩ | ⟨w, hd, hq⟩ | ⟨e, hd, hwf⟩ := decode_cases q
  · obtain ⟨t, ht⟩ := exec_completes i (s := { s with pending := rest }) hs
    obtain ⟨hrest, -, -⟩ := exec_next_frame ht
    obtain ⟨d, hreply, hdata⟩ := exec_reply ht
    exact ⟨t, d, .ok, (performAccess_instr _ hd).trans ht, hrest, hreply, hq ▸ hdata, by simp [hq]⟩
  · exact ⟨_, none, .ok, (performAccess_illegalCommand _ hd).trans (finishCommand_raise _ _), rfl, rfl,
      by simp [hq, writeReq], by simp [hq]⟩
  · obtain ⟨t, d, ht, hrest, hreply, hdata⟩ := answerBusError_reply q { s with pending := rest }
    exact ⟨t, d, .slverr, (performAccess_busError _ hd).trans ht, hrest, hreply, hdata, by simp [hwf]⟩

/-! ### When a command raises and what it commits, as conditions on the registers it reads -/

theorem commitPosition_of_ok {r : Regs} {p : Int} {duty : BitVec 12}
    (hinterp : interp (sint32 r.angle) (sint32 r.amin) (sint32 r.amax) (sint32 r.pmin) (sint32 r.pmax) = .ok p)
    (hquant : quant p (ppuVal r) = .ok (duty.toNat : Int)) :
    commitPosition r = .commit { r with pulse := word32 p, duty := duty } := by
  simp only [commitPosition, hinterp, hquant, dutyBits_ok_iff.mpr rfl]

theorem runConfig_raise_iff {r : Regs} {e : CommandError} :
    runConfig r = .raise e ↔
      (e = .invalidFrequency ∧ (operandB r ≤ 0 ∨ 1000000 / operandB r / 4096 = 0)) ∨
      (e = .indexOutOfRange ∧ 0 < operandB r ∧ 1000000 / operandB r / 4096 ≠ 0 ∧
        (operandA r < 0 ∨ 15 < operandA r)) := by
  obtain ⟨hbad, h⟩ | ⟨hf, hu, hbad, h⟩ | ⟨hf, hu, h0, h15, h⟩ := runConfig_cases r <;> rw [h]
  · constructor
    · rintro ⟨⟩
      exact .inl ⟨rfl, hbad⟩
    · rintro (⟨rfl, -⟩ | ⟨-, hf, hu, -⟩)
      · rfl
      · omega
  · simp [hf, hu, hbad, eq_comm]
  · simp only [commitPosition_ne_raise, false_iff]
    omega

theorem runSetPulseRange_raise_iff {r : Regs} {e : CommandError} :
    runSetPulseRange r = .raise e ↔
      (e = .invalidRange ∧ (operandB r ≤ operandA r ∨ operandA r < 0)) ∨
      (e = .dutyRange ∧ operandA r < operandB r ∧ 0 ≤ operandA r ∧
        ∃ d, quant (operandB r) (ppuVal r) = .ok d ∧ 4095 < d) := by
  obtain ⟨hbad, h⟩ | ⟨hlt, h0, ⟨f, hq, h⟩ | ⟨d, hq, hd, h⟩ | ⟨d, hq, hd, h⟩⟩ := runSetPulseRange_cases r <;> rw [h]
  · constructor
    · rintro ⟨⟩
      exact .inl ⟨rfl, hbad⟩
    · rintro (⟨rfl, -⟩ | ⟨-, hlt, h0, -⟩)
      · rfl
      · omega
  · simp only [hq, reduceCtorEq, false_and, exists_false, and_false, or_false, false_iff]
    omega
  · simp [hlt, h0, hq, hd, eq_comm]
  · simp only [hq, commitPosition_ne_raise, Except.ok.injEq, exists_eq_left', false_iff]
    omega

theorem runSetAngleRange_raise_iff {r : Regs} {e : CommandError} :
    runSetAngleRange r = .raise e ↔ e = .invalidRange ∧ operandB r ≤ operandA r := by
  obtain ⟨hbad, h⟩ | ⟨hlt, h⟩ := runSetAngleRange_cases r <;> rw [h]
  · simp [hbad, eq_comm]
  · simp [hlt, commitPosition_ne_raise]

theorem runSetAngle_raise_iff {r : Regs} {e : CommandError} :
    runSetAngle r = .raise e ↔ e = .outOfRange ∧ (operandA r < sint32 r.amin ∨ sint32 r.amax < operandA r) := by
  obtain ⟨hbad, h⟩ | ⟨hlo, hhi, h⟩ := runSetAngle_cases r <;> rw [h]
  · simp [hbad, eq_comm]
  · simp [hlo, hhi, commitPosition_ne_raise]

theorem runConfig_of_legal {r : Regs} (hf : 0 < operandB r) (hu : 1000000 / operandB r / 4096 ≠ 0)
    (h0 : 0 ≤ operandA r) (h15 : operandA r ≤ 15) :
    runConfig r = commitPosition (configuredRegs r (operandA r) (operandB r) (1000000 / operandB r / 4096)) := by
  obtain ⟨hno, -⟩ | ⟨-, -, hno, -⟩ | ⟨-, -, -, -, h⟩ := runConfig_cases r
  · omega
  · omega
  · exact h

theorem runSetPulseRange_of_legal {r : Regs} {d : Int} (h0 : 0 ≤ operandA r) (hlt : operandA r < operandB r)
    (hquant : quant (operandB r) (ppuVal r) = .ok d) (hd : d ≤ 4095) :
    runSetPulseRange r = commitPosition { r with pmin := r.opa, pmax := r.opb } := by
  obtain ⟨hno, -⟩ | ⟨-, -, ⟨f, hq, -⟩ | ⟨d', hq, hno, -⟩ | ⟨d', -, -, h⟩⟩ := runSetPulseRange_cases r
  · omega
  · rw [hquant] at hq
    cases hq
  · rw [hquant] at hq
    cases hq
    omega
  · simpa [operandA, operandB] using h

theorem runSetAngleRange_of_legal {r : Regs} (hlt : operandA r < operandB r) :
    runSetAngleRange r = commitPosition { r with
      amin := r.opa, amax := r.opb, angle := word32 (clamp (sint32 r.angle) (operandA r) (operandB r)) } := by
  rw [runSetAngleRange, if_neg (not_le.mpr hlt)]
  simp [operandA, operandB]

theorem runSetAngle_of_legal {r : Regs} (hlo : sint32 r.amin ≤ operandA r) (hhi : operandA r ≤ sint32 r.amax) :
    runSetAngle r = commitPosition { r with angle := r.opa } := by
  rw [runSetAngle, if_neg (by omega)]
  simp [operandA]

/-! ### A write repeated at once leaves what it left (R44) -/

/-- What makes a command the same again on the registers it left: it raises again what it raised, and commits again what
it committed, for neither reads the ERR that was written. -/
structure Repeatable (run : Regs → CommandEnd) : Prop where
  raisesAgain : ∀ {r e}, run r = .raise e → run (raiseError e r) = .raise e
  commitsAgain : ∀ {r t}, run r = .commit t → run { t with err := okCode } = .commit { t with err := okCode }

theorem finishCommand_repeated {run : Regs → CommandEnd} (hrun : Repeatable run) {s t : State}
    (h : finishCommand (run s.regs) s = .next t) : finishCommand (run t.regs) t = .next t := by
  obtain ⟨r, hr, rfl⟩ | ⟨e, he, rfl⟩ := finishCommand_next h
  · exact congrArg (finishCommand · _) (hrun.commitsAgain hr)
  · exact congrArg (finishCommand · _) (hrun.raisesAgain he)

/-- PULSE, DUTY and ERR are no inputs of the position. -/
theorem commitPosition_again {r t : Regs} (h : commitPosition r = .commit t) (e : BitVec 4) :
    commitPosition { t with err := e } = .commit { t with err := e } := by
  obtain ⟨p, duty, hinterp, hquant, rfl⟩ := commitPosition_commit h
  exact commitPosition_of_ok hinterp hquant

theorem runConfig_repeatable : Repeatable runConfig where
  raisesAgain {r _} h := runConfig_raise_iff.mpr ((runConfig_raise_iff (r := r)).mp h)
  commitsAgain {r t} h := by
    obtain ⟨-, hrun⟩ | ⟨-, -, -, hrun⟩ | ⟨hf, hu, h0, h15, hrun⟩ := runConfig_cases r <;> rw [hrun] at h
    · cases h
    · cases h
    · have hagain := commitPosition_again h okCode
      obtain ⟨p, d, rfl⟩ := commitPosition_keeps h
      exact Eq.trans (runConfig_of_legal hf hu h0 h15) hagain

theorem runSetPulseRange_repeatable : Repeatable runSetPulseRange where
  raisesAgain {r _} h := runSetPulseRange_raise_iff.mpr ((runSetPulseRange_raise_iff (r := r)).mp h)
  commitsAgain {r t} h := by
    obtain ⟨h0, hlt, ⟨d, hquant, hd⟩, hcommit⟩ := runSetPulseRange_commit h
    have hagain := commitPosition_again hcommit okCode
    obtain ⟨p, d, rfl⟩ := commitPosition_keeps hcommit
    exact Eq.trans (runSetPulseRange_of_legal h0 hlt hquant hd) hagain

theorem runSetAngleRange_repeatable : Repeatable runSetAngleRange where
  raisesAgain {r _} h := runSetAngleRange_raise_iff.mpr ((runSetAngleRange_raise_iff (r := r)).mp h)
  commitsAgain {r t} h := by
    obtain ⟨hlt, hcommit⟩ := runSetAngleRange_commit h
    have hagain := commitPosition_again hcommit okCode
    obtain ⟨p, d, rfl⟩ := commitPosition_keeps hcommit
    have hangle : clamp (sint32 (word32 (clamp (sint32 r.angle) (operandA r) (operandB r)))) (operandA r) (operandB r) =
        clamp (sint32 r.angle) (operandA r) (operandB r) := by
      obtain ⟨hlo, hhi⟩ := clamp_bounds (a := sint32 r.angle) hlt
      rw [sint32_word32_clamp hlt, clamp_of_mem hlo hhi]
    refine Eq.trans (runSetAngleRange_of_legal hlt) (Eq.trans ?_ hagain)
    exact congrArg (fun a => commitPosition { r with
      amin := r.opa, amax := r.opb, angle := word32 a, pulse := p, duty := d, err := okCode }) hangle

theorem runSetAngle_repeatable : Repeatable runSetAngle where
  raisesAgain {r _} h := runSetAngle_raise_iff.mpr ((runSetAngle_raise_iff (r := r)).mp h)
  commitsAgain {r t} h := by
    obtain ⟨hlo, hhi, hcommit⟩ := runSetAngle_commit h
    have hagain := commitPosition_again hcommit okCode
    obtain ⟨p, d, rfl⟩ := commitPosition_keeps hcommit
    exact Eq.trans (runSetAngle_of_legal hlo hhi) hagain

theorem whenConfigured_repeatable {run : Regs → CommandEnd} (hrun : Repeatable run)
    (hkeep : ∀ {r t}, run r = .commit t → t.configured = r.configured) :
    Repeatable fun r => whenConfigured r (run r) where
  raisesAgain {r e} h := by
    cases hc : r.configured with
    | false =>
      rw [whenConfigured_false _ hc] at h
      cases h
      exact whenConfigured_false _ hc
    | true =>
      rw [whenConfigured_true _ hc] at h
      exact (whenConfigured_true _ hc).trans (hrun.raisesAgain h)
  commitsAgain {r t} h := by
    cases hc : r.configured with
    | false =>
      rw [whenConfigured_false _ hc] at h
      cases h
    | true =>
      rw [whenConfigured_true _ hc] at h
      exact (whenConfigured_true _ ((hkeep h).trans hc)).trans (hrun.commitsAgain h)

theorem runSetPulseRange_keeps_configured {r t : Regs} (h : runSetPulseRange r = .commit t) :
    t.configured = r.configured := by
  obtain ⟨-, -, -, hcommit⟩ := runSetPulseRange_commit h
  obtain ⟨p, d, rfl⟩ := commitPosition_keeps hcommit
  rfl

theorem runSetAngleRange_keeps_configured {r t : Regs} (h : runSetAngleRange r = .commit t) :
    t.configured = r.configured := by
  obtain ⟨-, hcommit⟩ := runSetAngleRange_commit h
  obtain ⟨p, d, rfl⟩ := commitPosition_keeps hcommit
  rfl

theorem runSetAngle_keeps_configured {r t : Regs} (h : runSetAngle r = .commit t) : t.configured = r.configured := by
  obtain ⟨-, -, hcommit⟩ := runSetAngle_commit h
  obtain ⟨p, d, rfl⟩ := commitPosition_keeps hcommit
  rfl

/-- Settles O45: a command run again raises or commits the same, and an operand write stores the same word (R44). -/
theorem backToBackWritesAreIdempotent : Obligations.BackToBackWritesAreIdempotent := by
  intro s t i hi h
  obtain rfl | rfl | rfl | rfl | ⟨v, rfl⟩ | ⟨v, rfl⟩ := hi
  · exact finishCommand_repeated runConfig_repeatable h
  · exact finishCommand_repeated
      (whenConfigured_repeatable runSetPulseRange_repeatable runSetPulseRange_keeps_configured) h
  · exact finishCommand_repeated
      (whenConfigured_repeatable runSetAngleRange_repeatable runSetAngleRange_keeps_configured) h
  · exact finishCommand_repeated (whenConfigured_repeatable runSetAngle_repeatable runSetAngle_keeps_configured) h
  · cases answerWrite_next h
    rfl
  · cases answerWrite_next h
    rfl

/-! ### Byte lanes (R39) -/

theorem laneByte_getLsbD (w : Word) (k : Fin 4) {j : Nat} (hj : j < 8) :
    (laneByte w k).getLsbD j = w.getLsbD (8 * k.val + j) := by
  simp [laneByte, hj]

theorem wordOfLanes_laneByte (w : Word) :
    wordOfLanes (laneByte w 0) (laneByte w 1) (laneByte w 2) (laneByte w 3) = w := by
  have h10 : laneByte w 1 ++ laneByte w 0 = w.extractLsb' 0 16 :=
    BitVec.extractLsb'_append_extractLsb'_eq_extractLsb' rfl
  have h20 : laneByte w 2 ++ w.extractLsb' 0 16 = w.extractLsb' 0 24 :=
    BitVec.extractLsb'_append_extractLsb'_eq_extractLsb' rfl
  have h30 : laneByte w 3 ++ w.extractLsb' 0 24 = w.extractLsb' 0 32 :=
    BitVec.extractLsb'_append_extractLsb'_eq_extractLsb' rfl
  rw [wordOfLanes, h10, h20, h30, BitVec.extractLsb'_eq_self]

/-- Settles O52: the byte at `BASE + addr + k` is lane `k`, and adjacent lanes join to the word (R35, R39). -/
theorem byteLanesAreLittleEndian : Obligations.ByteLanesAreLittleEndian :=
  fun w => ⟨wordOfLanes_laneByte w, fun _ k => ⟨rfl, fun _ hj => laneByte_getLsbD w k hj⟩⟩

end Sys2Proof.Machine
end

section
/-! PROOFS. Encoding (30_encoding): table words and illegal command words, what SET_ANGLE does not read, the assembler's
literals and the expansion of its statements. -/

namespace Sys2Proof.Machine

open Sys2Proof

/-! ### Table words and command words (R53 to R56, R61) -/

theorem decodeCommand_eq_none {w : Word} (h1 : w ≠ 1#32) (h2 : w ≠ 2#32) (h3 : w ≠ 3#32) (h4 : w ≠ 4#32) :
    decodeCommand w = none := by
  rw [Option.eq_none_iff_forall_ne_some]
  intro i hi
  obtain ⟨rfl, -⟩ | ⟨rfl, -⟩ | ⟨rfl, -⟩ | ⟨rfl, -⟩ := decodeCommand_some_iff.mp hi <;> contradiction

theorem decode_write_cmd_illegal {w : Word} (h : decodeCommand w = none) :
    decode (writeReq 0x00#6 w) = .illegalCommand w := by
  rw [decode_writeReq w (by decide) (by decide)]
  simp [decodeWrite, h]

/-- Settles O15: such a word is no command, so the write raises IllegalCommand, which writes only ERR (R56, R110). -/
theorem illegalCommandWordsRaise : Obligations.IllegalCommandWordsRaise := by
  intro s w rest h1 h2 h3 h4 hpending
  have hdecode := decode_write_cmd_illegal (decodeCommand_eq_none h1 h2 h3 h4)
  calc step s = performAccess (writeReq 0x00#6 w) { s with pending := rest } := step_access hpending
    _ = finishCommand (.raise .illegalCommand) { s with pending := rest } := performAccess_illegalCommand _ hdecode
    _ = _ := finishCommand_raise .illegalCommand _

/-- A table word that stands for an instruction's access decodes to that instruction. -/
theorem decodeTableWord_of_encode {nbits w : Nat} {i : Instr} (h : requestOfTableWord nbits w = some (encode i)) :
    decodeTableWord nbits w = some i := by
  simp [decodeTableWord, h]

/-- Settles O9: the rows stand for the encodings of their instructions (R55, R61; log entry 10); the words next to them
are illegal commands (R56), a write to a read-only register and an unmapped read. -/
theorem tableWordsDecode : Obligations.TableWordsDecode :=
  ⟨decodeTableWord_of_encode rfl, decodeTableWord_of_encode rfl, by decide, by decide, decodeTableWord_of_encode rfl,
    decodeTableWord_of_encode rfl, decodeTableWord_of_encode rfl, decodeTableWord_of_encode rfl,
    decodeTableWord_of_encode rfl, by decide, by decide⟩

/-! ### SET_ANGLE does not read OPB (R60) -/

theorem runSetAngle_raise_with_opb {r : Regs} {e : CommandError} (v : Word) (h : runSetAngle r = .raise e) :
    runSetAngle { r with opb := v } = .raise e :=
  runSetAngle_raise_iff.mpr ((runSetAngle_raise_iff (r := r)).mp h)

theorem runSetAngle_commit_with_opb {r t : Regs} (v : Word) (h : runSetAngle r = .commit t) :
    runSetAngle { r with opb := v } = .commit { t with opb := v } := by
  obtain ⟨hlo, hhi, hcommit⟩ := runSetAngle_commit h
  obtain ⟨p, duty, hinterp, hquant, rfl⟩ := commitPosition_commit hcommit
  exact Eq.trans (runSetAngle_of_legal hlo hhi) (commitPosition_of_ok hinterp hquant)

theorem exec_setAngle_unconfigured {s : State} (h : s.regs.configured = false) :
    exec .setAngle s = finishCommand (.raise .notConfigured) s :=
  congrArg (finishCommand · s) (whenConfigured_false _ h)

theorem exec_setAngle_configured {s : State} (h : s.regs.configured = true) :
    exec .setAngle s = finishCommand (runSetAngle s.regs) s :=
  congrArg (finishCommand · s) (whenConfigured_true _ h)

/-- Settles O35: NotConfigured, OutOfRange and the commit are the same with any OPB (R60). -/
theorem setAngleDoesNotReadOpb : Obligations.SetAngleDoesNotReadOpb := by
  intro s t v h
  cases hc : s.regs.configured with
  | false =>
    rw [exec_setAngle_unconfigured hc] at h
    cases answerWrite_next h
    exact exec_setAngle_unconfigured hc
  | true =>
    rw [exec_setAngle_configured hc] at h
    refine Eq.trans (exec_setAngle_configured hc) ?_
    obtain ⟨r, hr, rfl⟩ | ⟨e, he, rfl⟩ := finishCommand_next h
    · exact congrArg (finishCommand · _) (runSetAngle_commit_with_opb v hr)
    · exact congrArg (finishCommand · _) (runSetAngle_raise_with_opb v he)

/-! ### The assembler's literals (R62, R64) -/

/-- An integer is the number written times the scale exactly when it is so without the fraction. -/
theorem eq_decimalValue_mul_iff (n scale : Int) (d : Decimal) :
    (n : ℚ) = decimalValue d * scale ↔ n * 10 ^ d.places = d.mant * scale := by
  rw [decimalValue, div_mul_eq_mul_div, eq_div_iff (by positivity)]
  exact_mod_cast Iff.rfl

/-- An accepted scaled literal gives exactly the word of the number written times the scale. -/
theorem assembleScaled_eq_some_iff {scale : Int} {d : Decimal} {w : Word} :
    assembleScaled scale d = some w ↔ (sint32 w : ℚ) = decimalValue d * scale := by
  rw [eq_decimalValue_mul_iff]
  have hpos : (0 : Int) < 10 ^ d.places := by positivity
  constructor
  · intro h
    simp only [assembleScaled, Option.ite_none_right_eq_some, Option.some.injEq] at h
    obtain ⟨⟨hexact, hlo, hhi⟩, rfl⟩ := h
    rw [sint32_word32 hlo hhi]
    exact Int.ediv_mul_cancel (Int.dvd_of_emod_eq_zero hexact)
  · intro h
    simp [assembleScaled, ← h, Int.mul_ediv_cancel _ hpos.ne', sint32_bounds w]

theorem assembleScaled_eq_none_iff {scale : Int} {d : Decimal} :
    assembleScaled scale d = none ↔
      ¬ ∃ n : Int, (n : ℚ) = decimalValue d * scale ∧ -2147483648 ≤ n ∧ n ≤ 2147483647 := by
  rw [Option.eq_none_iff_forall_ne_some, not_exists]
  constructor
  · rintro h n ⟨hn, hlo, hhi⟩
    refine h (word32 n) (assembleScaled_eq_some_iff.mpr ?_)
    rw [sint32_word32 hlo hhi, hn]
  · exact fun h w hw => h (sint32 w) ⟨assembleScaled_eq_some_iff.mp hw, sint32_bounds w⟩

/-- Settles O53, for each suffix at its scale: the word times the unit is the number written (R9, R62, R85). -/
theorem assemblerNeverRounds : Obligations.AssemblerNeverRounds := by
  refine fun d => ⟨fun w hw => ?_, fun w hw => ?_, fun w hw => ?_, ?_, ?_, ?_⟩
  · simp [degreesOf, assembleScaled_eq_some_iff.mp hw, Config.angleScale]
  · simp [microsecondsOf, assembleScaled_eq_some_iff.mp hw, Config.pulseScale]
  · simp [millisecondsOf, assembleScaled_eq_some_iff.mp hw, Config.pulseScale]
  · exact assembleScaled_eq_none_iff (scale := 65536)
  · exact assembleScaled_eq_none_iff (scale := 1024)
  · exact assembleScaled_eq_none_iff (scale := 1024000)

/-- Settles O54: each row of R64 computed. -/
theorem workedLiterals : Obligations.WorkedLiterals := by
  unfold Obligations.WorkedLiterals
  decide

/-! ### The pseudo-instructions (R63) -/

@[simp] theorem commandOfTwo_some (a b w : Word) :
    commandOfTwo (some a) (some b) w = some [wrReq .opa a, wrReq .opb b, wrReq .cmd w] := rfl

/-- Settles O55: the two-operand commands expand by `commandOfTwo`, SET_ANGLE writes OPA and CMD, CHECK reads STATUS. -/
theorem pseudoInstructionsExpandInOrder : Obligations.PseudoInstructionsExpandInOrder := by
  refine ⟨fun ch f a b ha hb => ?config, fun lo hi a b ha hb => ⟨?pulseRange, ?angleRange⟩,
    fun l a ha => ?setAngle, rfl⟩
  case config =>
    rw [assembleLit] at ha hb
    rw [expandStmt, ha, hb, commandOfTwo_some]
  case pulseRange => rw [expandStmt, ha, hb, commandOfTwo_some]
  case angleRange => rw [expandStmt, ha, hb, commandOfTwo_some]
  case setAngle => rw [expandStmt, ha, Option.map_some]

end Sys2Proof.Machine
end

section
/-! PROOFS. Datapath (40_datapath): no step reaches a fault; the period constant, the duty quantizer, the interpolator and
the clamp as exact arithmetic; the ranges of their operations under the invariants. -/

namespace Sys2Proof.Machine

open Sys2Proof

/-! ### Under the invariants no step reaches a fault (R68, R73, R75) -/

theorem performAccess_completes (q : Request) {s : State} (hs : s.regs.Inv) : ∃ t, performAccess q s = .next t := by
  cases hd : decode q with
  | instr i =>
    obtain ⟨t, ht⟩ := exec_completes i hs
    exact ⟨t, (performAccess_instr s hd).trans ht⟩
  | illegalCommand w => exact ⟨_, (performAccess_illegalCommand s hd).trans (finishCommand_raise _ s)⟩
  | busError e =>
    obtain ⟨d, n, hanswer⟩ := answerBusError_next q s
    exact ⟨_, (performAccess_busError s hd).trans hanswer⟩

/-- Whichever way the free choice of an overlapped access falls (log entry 5), the host step completes. -/
theorem performHostStep_completes (k : HostStep) {s : State} (hs : s.regs.Inv) :
    ∃ t, performHostStep k s = .next t := by
  cases k with
  | access q => exact performAccess_completes q hs
  | reset => exact ⟨_, rfl⟩
  | resetDuring q =>
    simp only [performHostStep]
    split
    · exact performAccess_completes q (s := { s with pending := .reset :: s.pending, nFree := s.nFree + 1 }) hs
    · exact ⟨_, rfl⟩

/-- Settles O4: a request of the host completes under the invariants, and with none the step is refused, not faulted
(log entries 7 and 8 for the faults that are the model's choices). -/
theorem stepNeverFaults : Obligations.StepNeverFaults := by
  intro s hs f
  cases hpending : s.pending with
  | nil =>
    rw [step_nil hpending]
    nofun
  | cons k rest =>
    obtain ⟨t, ht⟩ := performHostStep_completes k (s := { s with pending := rest }) hs
    rw [step_cons hpending, ht]
    nofun

/-! ### The period constant (R65) -/

theorem period_ediv_4096 {f : Int} (hf : 1 ≤ f) : 1000000 / f / 4096 = 1000000 / (4096 * f) := by
  rw [Int.ediv_ediv_of_nonneg (by omega), mul_comm]

/-- The period in whole microseconds never exceeds one second, and the constant never exceeds that of 1 Hz. -/
theorem period_bounds {f : Int} (hf : 1 ≤ f) :
    0 ≤ 1000000 / f ∧ 1000000 / f ≤ 1000000 ∧ 0 ≤ 1000000 / f / 4096 ∧ 1000000 / f / 4096 ≤ 244 := by
  have hnonneg : 0 ≤ 1000000 / f := Int.ediv_nonneg (by decide) (by omega)
  have hle : 1000000 / f ≤ 1000000 := Int.ediv_le_self f (by decide)
  omega

/-- The limit is exact: `4096 * 244 ≤ 1000000 < 4096 * 245`. -/
theorem one_le_periodConstant_iff {f : Int} (hf : 1 ≤ f) : 1 ≤ 1000000 / f / 4096 ↔ f ≤ 244 := by
  rw [period_ediv_4096 hf, Int.le_ediv_iff_mul_le (by omega)]
  omega

/-- Settles O16: the general law by the two truncations taken as one, the table of R65 computed. -/
theorem periodConstant : Obligations.PeriodConstant := by
  refine ⟨fun f hf => ?law, by decide⟩
  obtain ⟨hp0, hp1, hu0, hu1⟩ := period_bounds hf
  exact ⟨_, ppuOf_eq hf, rfl, period_ediv_4096 hf, hp0, hp1, hu0, hu1, one_le_periodConstant_iff hf⟩

/-! ### The duty quantizer (R66) -/

theorem quant_eq {p u : Int} (hp : 0 ≤ p) (hu : 1 ≤ u) : quant p u = .ok (p / (u * 1024)) :=
  quant_ok_iff.mpr ⟨hp, hu, rfl⟩

/-- Whole microseconds first, then counts. -/
theorem count_eq_ediv_ediv (p u : Int) : p / (u * 1024) = p / 1024 / u := by
  rw [Int.ediv_ediv_of_nonneg (by omega), mul_comm]

/-- A 32-bit pulse has at most 2097151 whole microseconds, and a count is at least one of them. -/
theorem count_le {p : Int} (u : Int) (hp : 0 ≤ p) (hmax : p ≤ 2147483647) : p / (u * 1024) ≤ 2097151 := by
  rw [count_eq_ediv_ediv]
  calc p / 1024 / u ≤ p / 1024 := Int.ediv_le_self u (by omega)
    _ ≤ 2097151 := by omega

/-- Settles O17: QUANT is the quotient by one positive divisor, which two truncations reach as well; the example of R66
computed. -/
theorem dutyQuantizerTruncates : Obligations.DutyQuantizerTruncates := by
  refine ⟨fun p u hp hu => ?law, by decide⟩
  have hdiv : 0 < u * 1024 := by omega
  exact ⟨_, quant_eq hp hu, Int.ediv_mul_le p hdiv.ne', Int.lt_ediv_add_one_mul_self p hdiv, count_eq_ediv_ediv p u,
    by omega, count_le u hp⟩

/-! ### The interpolator (R70 to R72) -/

/-- The interpolator's only truncation is the last step, so its value is the floor of the exact rational formula. -/
theorem interp_value_eq_floor {a amin amax pmin pmax : Int} (ha : amin < amax) :
    pmin + (pmax - pmin) * (a - amin) / (amax - amin) =
      ⌊(pmin : ℚ) + (pmax - pmin) * (a - amin) / (amax - amin)⌋ := by
  have hdiv := Int.floor_div_cast_of_nonneg (k := ℚ) (show 0 ≤ amax - amin by omega)
    (((pmax - pmin) * (a - amin) : Int) : ℚ)
  rw [Int.floor_intCast] at hdiv
  rw [Int.floor_intCast_add, ← hdiv]
  push_cast
  rfl

/-- Settles O18: INTERP is a floor, and the error is that floor's fractional part. -/
theorem interpolatorIsExactThenTruncated : Obligations.InterpolatorIsExactThenTruncated := by
  intro a amin amax pmin pmax ha hlo hhi _ hp
  refine ⟨_, interp_eq ha hlo hhi hp, interp_value_eq_floor ha, ?_, ?_⟩ <;> rw [interp_value_eq_floor ha]
  · exact Int.fract_nonneg _
  · exact Int.fract_lt_one _

/-- Settles O19: at `amin` the product is 0, at `amax` the divisor cancels. -/
theorem interpolatorEndpointsAreExact : Obligations.InterpolatorEndpointsAreExact := by
  intro amin amax pmin pmax ha _ hp
  constructor
  · simp [interp_eq ha le_rfl ha.le hp]
  · simp [interp_eq ha ha.le le_rfl hp, Int.mul_ediv_cancel _ (sub_ne_zero.mpr ha.ne')]

/-- A numerator larger by at least the divisor has a larger quotient. -/
theorem ediv_lt_ediv_of_add_le {m n d : Int} (hd : 0 < d) (h : m + d ≤ n) : m / d < n / d := by
  calc m / d < m / d + 1 := Int.lt_succ (m / d)
    _ = (m + d) / d := by rw [Int.add_ediv_of_dvd_right (dvd_refl d), Int.ediv_self hd.ne']
    _ ≤ n / d := Int.ediv_le_ediv hd h

/-- Settles O20: product and quotient keep the order of the angles; the equal pulses are those of V-I8, the angles 1 and 2
of the default ranges. -/
theorem interpolatorIsMonotone : Obligations.InterpolatorIsMonotone := by
  refine ⟨?_, 1, 2, 0, 11796480, 1024000, 2048000, 1024000, by decide⟩
  intro a1 a2 amin amax pmin pmax ha _ hp hlo h12 hhi
  have hden : 0 < amax - amin := by omega
  refine ⟨_, _, interp_eq ha hlo (h12.trans hhi) hp, interp_eq ha (hlo.trans h12) hhi hp, ?mono, ?strict, ?exact⟩
  case mono =>
    have hnum : (pmax - pmin) * (a1 - amin) ≤ (pmax - pmin) * (a2 - amin) :=
      mul_le_mul_of_nonneg_left (by omega) (by omega)
    exact Int.add_le_add_left (Int.ediv_le_ediv hden hnum) pmin
  case strict =>
    intro hlong
    have hnum : (pmax - pmin) * (a1 - amin) + (amax - amin) ≤ (pmax - pmin) * (a2 - amin) := by linarith
    exact Int.add_lt_add_left (ediv_lt_ediv_of_add_le hden hnum) pmin
  case exact =>
    intro hlt
    have hdenQ : (0 : ℚ) < amax - amin := by exact_mod_cast hden
    have hpQ : (0 : ℚ) < pmax - pmin := sub_pos.mpr (by exact_mod_cast hp)
    have hltQ : (a1 : ℚ) < a2 := by exact_mod_cast hlt
    gcongr

/-! ### The clamp (R69) -/

theorem clamp_of_lt {a lo hi : Int} (h : a < lo) : clamp a lo hi = lo := if_pos h

theorem clamp_of_gt {a lo hi : Int} (hr : lo < hi) (h : hi < a) : clamp a lo hi = hi := by
  rw [clamp, if_neg (by omega), if_pos h]

/-- No value of the range is nearer than the clamped one: the crossed bound is between the angle and every such value. -/
theorem abs_sub_clamp_le {a lo hi b : Int} (hr : lo < hi) (hlo : lo ≤ b) (hhi : b ≤ hi) :
    |a - clamp a lo hi| ≤ |a - b| := by
  obtain hbelow | hge := lt_or_ge a lo
  · rw [clamp_of_lt hbelow]
    exact abs_le_abs_of_nonpos (by omega) (by omega)
  · obtain habove | hle := lt_or_ge hi a
    · rw [clamp_of_gt hr habove]
      exact abs_le_abs_of_nonneg (by omega) (by omega)
    · rw [clamp_of_mem hge hle, sub_self, abs_zero]
      exact abs_nonneg _

/-- Settles O21: one lemma for each case of CLAMP, and the distance over the same cases; the example of R69 computed. -/
theorem clampGoesToTheNearerBound : Obligations.ClampGoesToTheNearerBound :=
  ⟨fun _ _ _ hr => ⟨clamp_of_lt, clamp_of_gt hr, clamp_of_mem, fun _ => abs_sub_clamp_le hr⟩, by decide⟩

/-! ### The datapath under the invariants (R73, R75) -/

theorem quant_mono {p1 p2 u d1 d2 : Int} (h : p1 ≤ p2) (h1 : quant p1 u = .ok d1) (h2 : quant p2 u = .ok d2) :
    d1 ≤ d2 := by
  obtain ⟨-, hu, rfl⟩ := quant_ok_iff.mp h1
  obtain ⟨-, -, rfl⟩ := quant_ok_iff.mp h2
  exact Int.ediv_le_ediv (by omega) h

/-- Settles O22: the count of a pulse in range is at most that of PMAX (INV7), so 12 bits hold it. -/
theorem dutyOfEveryPulseInRangeFits : Obligations.DutyOfEveryPulseInRangeFits := by
  refine ⟨fun _ _ _ _ _ => quant_mono, fun r p hr hlo hhi => ?_⟩
  obtain ⟨dmax, hmax, hfits⟩ := hr.dutyBound
  have hp : 0 ≤ p := hr.pulseBounds.1.trans hlo
  have hppu := hr.ppu_pos
  have hquant := quant_eq hp hppu
  have hd0 : 0 ≤ p / (ppuVal r * 1024) := Int.ediv_nonneg hp (by omega)
  have hdmax := quant_mono hhi hquant hmax
  have hbits := dutyBits_eq hd0 (hdmax.trans hfits)
  exact ⟨_, dmax, _, hquant, hmax, hd0, hdmax, hfits, hbits, (dutyBits_ok_iff.mp hbits).symm⟩

theorem Regs.Inv.ppu_le {r : Regs} (h : r.Inv) : ppuVal r ≤ 244 := by
  obtain ⟨hf, -, hppu⟩ := h.freqLegal
  rw [ppuOf_eq hf, Except.ok.injEq] at hppu
  obtain ⟨-, -, -, hu⟩ := period_bounds hf
  exact hppu ▸ hu

/-- The multiplier's operands have 31 and 32 bits, so the product has 63. -/
theorem product_bounds {x y : Int} (hx0 : 0 ≤ x) (hx : x ≤ 2147483647) (hy0 : 0 ≤ y) (hy : y ≤ 4294967295) :
    0 ≤ x * y ∧ x * y < 2 ^ 63 := by
  refine ⟨mul_nonneg hx0 hy0, ?_⟩
  calc x * y ≤ 2147483647 * 4294967295 := mul_le_mul hx hy hy0 (by decide)
    _ < 2 ^ 63 := by decide

/-- Settles O23: the differences by INV1, INV2 and the width of a word, the divisor by INV6. -/
theorem datapathRangesHold : Obligations.DatapathRangesHold := by
  intro r a hr hlo hhi
  have hangle := hr.angleBounds
  obtain ⟨hpmin, hpulse⟩ := hr.pulseBounds
  have hamin := sint32_bounds r.amin
  have hamax := sint32_bounds r.amax
  have hpmax := sint32_bounds r.pmax
  have hppu := hr.ppu_pos
  have hppu244 := hr.ppu_le
  exact ⟨by omega, by omega, by omega, product_bounds (by omega) (by omega) (by omega) (by omega), by omega⟩

end Sys2Proof.Machine
end

section
/-! PROOFS. Configuration (41_configuration): what CONFIG commits on legal operands, from every register file, and that its
operand checks are the only way it fails (R77, R78). -/

namespace Sys2Proof.Machine

open Sys2Proof

/-! ### The position CONFIG computes on the default ranges (R77) -/

/-- The channel register takes the low four bits of OPA, whatever the sign of the word. -/
theorem ofInt_sint32_eq_extractLsb' (w : Word) : BitVec.ofInt 4 (sint32 w) = w.extractLsb' 0 4 := by
  apply BitVec.eq_of_toNat_eq
  simp only [sint32, BitVec.toNat_ofInt, BitVec.toInt_eq_toNat_bmod, BitVec.extractLsb'_toNat, Nat.shiftRight_zero,
    Int.bmod_def]
  omega

theorem ppuVal_configuredRegs (r : Regs) (ch f : Int) {u : Int} (hu : 1 ≤ u) (hu244 : u ≤ 244) :
    ppuVal (configuredRegs r ch f u) = u := by
  simp only [ppuVal, configuredRegs_ppu, BitVec.toNat_ofInt]
  omega

/-- A pulse of whole microseconds has the count of those microseconds. -/
theorem quant_microseconds {p u : Int} (hp : 0 ≤ p) (hu : 1 ≤ u) : quant (p * 1024) u = .ok (p / u) := by
  rw [quant_eq (by omega) hu, Int.mul_ediv_mul_of_pos_left p u (by decide)]

/-- The count of the default minimum, 1000 microseconds, over the period constants CONFIG installs (R78). -/
theorem initialDuty_bounds {u : Int} (hu : 1 ≤ u) (hu244 : u ≤ 244) : 4 ≤ 1000 / u ∧ 1000 / u ≤ 1000 :=
  ⟨(Int.le_ediv_iff_mul_le (by omega)).mpr (by omega), Int.ediv_le_self u (by decide)⟩

/-- The default angle is the lower bound of its range, so the position is that of the lower pulse bound. -/
theorem commitPosition_configuredRegs (r : Regs) (ch f : Int) {u : Int} (hu : 1 ≤ u) (hu244 : u ≤ 244) :
    commitPosition (configuredRegs r ch f u) = .commit { configuredRegs r ch f u with
      pulse := Config.defaultPulseMin, duty := BitVec.ofInt 12 (1000 / u) } := by
  obtain ⟨hd4, hd1000⟩ := initialDuty_bounds hu hu244
  have hduty := dutyBits_ok_iff.mp (dutyBits_eq (d := 1000 / u) (by omega) (by omega))
  refine commitPosition_of_ok (p := 1024000) ?interp ?quant
  case interp =>
    simp only [configuredRegs_angle, configuredRegs_amin, configuredRegs_amax, configuredRegs_pmin,
      configuredRegs_pmax, sint32_defaultAngleMin, sint32_defaultAngleMax, sint32_defaultPulseMin,
      sint32_defaultPulseMax]
    decide
  case quant =>
    rw [ppuVal_configuredRegs r ch f hu hu244, ← hduty]
    exact quant_microseconds (p := 1000) (by decide) hu

/-! ### CONFIG on legal operands and on all others -/

/-- The operands R77's two checks let pass: a frequency in `[1, 244]` and a channel in `[0, 15]`. -/
def Regs.ConfigOperandsLegal (r : Regs) : Prop :=
  1 ≤ operandB r ∧ operandB r ≤ 244 ∧ 0 ≤ operandA r ∧ operandA r ≤ 15

theorem runConfig_of_operandsLegal {r : Regs} (h : r.ConfigOperandsLegal) :
    runConfig r = .commit { configuredRegs r (operandA r) (operandB r) (1000000 / operandB r / 4096) with
      pulse := Config.defaultPulseMin, duty := BitVec.ofInt 12 (1000 / (1000000 / operandB r / 4096)) } := by
  obtain ⟨hf, hf244, h0, h15⟩ := h
  obtain ⟨-, -, -, hu244⟩ := period_bounds hf
  have hu := (one_le_periodConstant_iff hf).mpr hf244
  exact (runConfig_of_legal hf (by omega) h0 h15).trans (commitPosition_configuredRegs r _ _ hu hu244)

/-- A failed check is one of the two, and it raises: no other end is left for CONFIG. -/
theorem runConfig_of_not_operandsLegal {r : Regs} (h : ¬ r.ConfigOperandsLegal) :
    ∃ e, runConfig r = .raise e ∧ (e = .invalidFrequency ∨ e = .indexOutOfRange) := by
  obtain ⟨-, hrun⟩ | ⟨-, -, -, hrun⟩ | ⟨hf, hu, h0, h15, -⟩ := runConfig_cases r
  · exact ⟨_, hrun, .inl rfl⟩
  · exact ⟨_, hrun, .inr rfl⟩
  · obtain ⟨hf244, -, -⟩ := freq_ppu_bounds hf hu
    exact absurd ⟨hf, hf244, h0, h15⟩ h

theorem exec_config_commit {s : State} {r : Regs} (h : runConfig s.regs = .commit r) :
    exec .config s =
      .next { s with regs := { r with err := okCode }, reply := some { resp := .ok, data := none } } :=
  congrArg (finishCommand · s) h

theorem exec_config_raise {s : State} {e : CommandError} (h : runConfig s.regs = .raise e) :
    exec .config s =
      .next { s with regs := raiseError e s.regs, reply := some { resp := .ok, data := none } } :=
  congrArg (finishCommand · s) h

/-- Settles O24: the commit of CONFIG, whose FREQ and CHANNEL are OPB and the low bits of OPA (R7, R77). -/
theorem configCompletes : Obligations.ConfigCompletes := by
  intro s hf hf244 h0 h15
  rw [exec_config_commit (runConfig_of_operandsLegal ⟨hf, hf244, h0, h15⟩), ← ofInt_sint32_eq_extractLsb']
  simp only [configuredRegs, operandA, operandB, word32_sint32]
  rfl

/-! ### What a successful CONFIG establishes (R78) -/

/-- At the default pulse minimum the invariants leave one value for DUTY (INV5). -/
theorem Regs.Inv.duty_of_defaultPulseMin {r : Regs} (h : r.Inv) (hpulse : r.pulse = Config.defaultPulseMin) :
    (r.duty.toNat : Int) = 1000 / ppuVal r := by
  have hduty := h.dutyFresh
  rw [hpulse, sint32_defaultPulseMin] at hduty
  exact Except.ok.inj (hduty.symm.trans (quant_microseconds (p := 1000) (by decide) h.ppu_pos))

/-- What the invariants say of DUTY, PPU and the default maximum's count at the default pulse minimum. -/
theorem Regs.Inv.initial_bounds {r : Regs} (h : r.Inv) (hpulse : r.pulse = Config.defaultPulseMin) :
    (r.duty.toNat : Int) = 1000 / ppuVal r ∧ 4 ≤ r.duty.toNat ∧ r.duty.toNat ≤ 1000 ∧
      1 ≤ ppuVal r ∧ ppuVal r ≤ 244 ∧
      quant 0x001F4000 (ppuVal r) = .ok (2000 / ppuVal r) ∧ 2000 / ppuVal r ≤ 2000 := by
  have hduty := h.duty_of_defaultPulseMin hpulse
  obtain ⟨hd4, hd1000⟩ := initialDuty_bounds h.ppu_pos h.ppu_le
  exact ⟨hduty, by omega, by omega, h.ppu_pos, h.ppu_le, quant_microseconds (p := 2000) (by decide) h.ppu_pos,
    Int.ediv_le_self _ (by decide)⟩

/-- Settles O26: on operands that fail a check CONFIG raises 4 or 5; on all others it commits ranges that are legal whatever
the state before, and the bounds of DUTY and of the default maximum's count follow from INV5 and INV6. -/
theorem successfulConfigEstablishesInvariants : Obligations.SuccessfulConfigEstablishesInvariants := by
  intro s
  by_cases hlegal : s.regs.ConfigOperandsLegal
  case neg =>
    obtain ⟨e, hrun, he⟩ := runConfig_of_not_operandsLegal hlegal
    have hcode : errorCode e = 4#4 ∨ errorCode e = 5#4 := by
      obtain rfl | rfl := he
      · exact .inr rfl
      · exact .inl rfl
    have hne : errorCode e ≠ 0#4 := by
      obtain h | h := hcode <;> simp [h]
    exact ⟨_, exec_config_raise hrun, .inr hcode, iff_of_false hne hlegal, fun h => absurd h hne⟩
  case pos =>
    have hrun := runConfig_of_operandsLegal hlegal
    refine ⟨_, exec_config_commit hrun, .inl rfl, iff_of_true rfl hlegal, fun _ => ?_⟩
    have hinv := (runConfig_inv hrun).with_operands_status s.regs.opa s.regs.opb okCode true
    exact ⟨hinv, hinv.initial_bounds rfl⟩

end Sys2Proof.Machine
end

section
/-! PROOFS. Calibration (42_calibration): what the two range commands commit on legal bounds, which bounds they reject, and
where a clamped angle puts the pulse (R79, R81). -/

namespace Sys2Proof.Machine

open Sys2Proof

/-! ### A command that runs in a configured state (R74) -/

theorem finishCommand_whenConfigured_commit {s : State} {c : CommandEnd} {r : Regs} (hc : s.regs.configured = true)
    (h : c = .commit r) :
    finishCommand (whenConfigured s.regs c) s =
      .next { s with regs := { r with err := okCode }, reply := some { resp := .ok, data := none } } := by
  rw [whenConfigured_true c hc, h, finishCommand_commit]

theorem finishCommand_whenConfigured_raise {s : State} {c : CommandEnd} {e : CommandError}
    (hc : s.regs.configured = true) (h : c = .raise e) :
    finishCommand (whenConfigured s.regs c) s =
      .next { s with regs := raiseError e s.regs, reply := some { resp := .ok, data := none } } := by
  rw [whenConfigured_true c hc, h, finishCommand_raise]

/-! ### SET_PULSE_RANGE (R79) -/

/-- The largest pulse whose count fits in 12 bits of DUTY. -/
theorem count_fits_iff {p u : Int} (hu : 0 < u) : p / (u * 1024) ≤ 4095 ↔ p ≤ 4096 * u * 1024 - 1 := by
  have hcount : p / (u * 1024) < 4096 ↔ p < 4096 * (u * 1024) := Int.ediv_lt_iff_lt_mul (by omega)
  omega

/-- Settles O27: QUANT of the upper bound fits in DUTY, and on the new pulse range the position of the unchanged angle
commits. -/
theorem setPulseRangeCompletes : Obligations.SetPulseRangeCompletes := by
  rintro s hs hc h0 hlt hmax p rfl
  have hfits := (count_fits_iff hs.ppu_pos).mpr hmax
  have hrun := runSetPulseRange_of_legal h0 hlt (quant_eq (h0.trans hlt.le) hs.ppu_pos) hfits
  have hcommit := commitPosition_eq (r := { s.regs with pmin := s.regs.opa, pmax := s.regs.opb })
    hs.angleBounds hs.angleInRange.1 hs.angleInRange.2 h0 hlt hs.ppu_pos hfits
  exact finishCommand_whenConfigured_commit hc (hrun.trans hcommit)

/-- Settles O28: InvalidRange comes from the bounds alone; for DutyRange the invariants give QUANT its domain, and the
count of the upper bound is past 4095. -/
theorem setPulseRangeRejections : Obligations.SetPulseRangeRejections := by
  refine fun s hc => ⟨fun hbad => ?invalidRange, fun hs h0 hlt hlarge => ?dutyRange⟩
  case invalidRange =>
    exact finishCommand_whenConfigured_raise hc (runSetPulseRange_raise_iff.mpr (.inl ⟨rfl, hbad⟩))
  case dutyRange =>
    have hcount : 4095 < sint32 s.regs.opb / (ppuVal s.regs * 1024) := by
      have hfits := count_fits_iff (p := sint32 s.regs.opb) hs.ppu_pos
      omega
    have hquant := quant_eq (h0.trans hlt.le) hs.ppu_pos
    exact finishCommand_whenConfigured_raise hc
      (runSetPulseRange_raise_iff.mpr (.inr ⟨rfl, hlt, h0, _, hquant, hcount⟩))

/-! ### SET_ANGLE_RANGE (R81) -/

/-- Settles O30: `lo >= hi` is what SET_ANGLE_RANGE raises on, and InvalidRange is all it raises. -/
theorem setAngleRangeRejections : Obligations.SetAngleRangeRejections :=
  fun _ hc hbad => finishCommand_whenConfigured_raise hc (runSetAngleRange_raise_iff.mpr ⟨rfl, hbad⟩)

/-- The position the new angle range gives the clamped angle. INV7 bounds its count, for PMAX and PPU stay (R82). -/
theorem runSetAngleRange_commits {r : Regs} (hr : r.Inv) (hlt : operandA r < operandB r) {a p : Int}
    (ha : a = clamp (sint32 r.angle) (operandA r) (operandB r))
    (hp : p = sint32 r.pmin + (sint32 r.pmax - sint32 r.pmin) * (a - operandA r) / (operandB r - operandA r)) :
    runSetAngleRange r = .commit { r with
      amin := r.opa, amax := r.opb, angle := word32 a, pulse := word32 p
      duty := BitVec.ofInt 12 (p / (ppuVal r * 1024)) } := by
  have hword : sint32 (word32 a) = a := ha ▸ sint32_word32_clamp hlt _
  obtain ⟨hlo, hhi⟩ : operandA r ≤ a ∧ a ≤ operandB r := ha ▸ clamp_bounds hlt
  obtain ⟨d, hquant, hd⟩ := hr.dutyBound
  obtain ⟨-, hppu, rfl⟩ := quant_ok_iff.mp hquant
  have hcommit := commitPosition_eq (r := { r with amin := r.opa, amax := r.opb, angle := word32 a })
    hlt (hlo.trans_eq hword.symm) (hword.trans_le hhi) hr.pulseBounds.1 hr.pulseBounds.2 hppu hd
  simp only [hword] at hcommit
  rw [runSetAngleRange_of_legal hlt, ← ha, hp]
  exact hcommit

/-- Settles O29: the commit of SET_ANGLE_RANGE, whose new angle is CLAMP spelled out (R69). -/
theorem setAngleRangeCompletes : Obligations.SetAngleRangeCompletes :=
  fun _ hs hc hlt _ _ ha hp => finishCommand_whenConfigured_commit hc (runSetAngleRange_commits hs hlt ha hp)

/-- Settles O31: at the lower bound the product of INTERP is 0, at the upper bound its divisor cancels (R70); CLAMP keeps
an angle inside. -/
theorem setAngleRangeClampsToExactEndpoints : Obligations.SetAngleRangeClampsToExactEndpoints := by
  intro s hs hc hlt
  refine ⟨_, setAngleRangeCompletes s hs hc hlt (clamp (sint32 s.regs.angle) (sint32 s.regs.opa) (sint32 s.regs.opb)) _
    rfl rfl, fun hbelow => ?below, fun habove => ?above, fun hlo hhi => ?inside⟩
  case below => simp [clamp_of_lt hbelow]
  case above =>
    have hden : sint32 s.regs.opb - sint32 s.regs.opa ≠ 0 := by omega
    simp [clamp_of_gt hlt habove, Int.mul_ediv_cancel _ hden]
  case inside => simp [clamp_of_mem hlo hhi]

end Sys2Proof.Machine
end

section
/-! PROOFS. Positioning (43_positioning): what SET_ANGLE commits on an angle of the range, and where the pulse lies at the
two bounds (R83). -/

namespace Sys2Proof.Machine

open Sys2Proof

/-- The position of an angle inside the range. INV7 bounds its count, for PMAX and PPU stay. -/
theorem runSetAngle_commits {r : Regs} (hr : r.Inv) (hlo : sint32 r.amin ≤ operandA r)
    (hhi : operandA r ≤ sint32 r.amax) {p : Int}
    (hp : p = sint32 r.pmin + (sint32 r.pmax - sint32 r.pmin) * (operandA r - sint32 r.amin) /
      (sint32 r.amax - sint32 r.amin)) :
    runSetAngle r = .commit { r with
      angle := r.opa, pulse := word32 p, duty := BitVec.ofInt 12 (p / (ppuVal r * 1024)) } := by
  obtain ⟨d, hquant, hd⟩ := hr.dutyBound
  obtain ⟨-, hppu, rfl⟩ := quant_ok_iff.mp hquant
  rw [runSetAngle_of_legal hlo hhi, hp]
  exact commitPosition_eq (r := { r with angle := r.opa })
    hr.angleBounds hlo hhi hr.pulseBounds.1 hr.pulseBounds.2 hppu hd

/-- Settles O32: a configured block runs the commit of SET_ANGLE. -/
theorem setAngleCompletes : Obligations.SetAngleCompletes :=
  fun _ hs hc hlo hhi _ hp => finishCommand_whenConfigured_commit hc (runSetAngle_commits hs hlo hhi hp)

/-- Settles O34: INV1 puts both bounds in the range; at AMIN the product of INTERP is 0, at AMAX its divisor cancels
(R70). -/
theorem setAngleAtTheBoundsIsExact : Obligations.SetAngleAtTheBoundsIsExact := by
  intro s hs hc
  have hab := hs.angleBounds
  refine ⟨fun hmin => ?atMin, fun hmax => ?atMax⟩
  case atMin =>
    have hrun := setAngleCompletes s hs hc (by rw [hmin]) (by rw [hmin]; exact hab.le) _ rfl
    exact ⟨_, hrun, hmin, by simp [hmin], rfl⟩
  case atMax =>
    have hrun := setAngleCompletes s hs hc (by rw [hmax]; exact hab.le) (by rw [hmax]) _ rfl
    have hden : sint32 s.regs.amax - sint32 s.regs.amin ≠ 0 := by omega
    exact ⟨_, hrun, hmax, by simp [hmax, Int.mul_ediv_cancel _ hden], rfl⟩

end Sys2Proof.Machine
end

section
/-! PROOFS. The accessors (44_accessors): what each read returns (R86 to R96, R99, R100) and what the operand writes
store (R97, R98). -/

namespace Sys2Proof.Machine

open Sys2Proof

/-- No two registers of the map share an offset (R36). -/
@[simp] theorem regAt_offsetOf (n : RegName) : regAt (offsetOf n) = some n := by
  cases n <;> decide

/-- The instruction whose access reads the register `n` answers the word that `n` returns (R36). -/
theorem exec_of_encode_eq_rdReq {i : Instr} (n : RegName) (hi : encode i = rdReq n) {s : State} {w : Word}
    (hw : readValue s.regs n = some w) : exec i s = answerRead w s := by
  obtain ⟨m, w', hreg, hvalue, hexec⟩ := exec_read (i := i) (by rw [hi]; rfl) s
  obtain rfl : n = m := by simpa [hi, rdReq, readReq] using hreg
  obtain rfl : w = w' := by simpa [hw] using hvalue
  exact hexec

/-- Settles O40: each read instruction is the access at one register's offset, and the column of R36 gives its word. -/
theorem readsReturnTheirRegister : Obligations.ReadsReturnTheirRegister :=
  fun _ =>
    ⟨exec_of_encode_eq_rdReq .opa rfl rfl, exec_of_encode_eq_rdReq .opb rfl rfl,
      exec_of_encode_eq_rdReq .status rfl rfl, exec_of_encode_eq_rdReq .channel rfl rfl,
      exec_of_encode_eq_rdReq .freq rfl rfl, exec_of_encode_eq_rdReq .ppu rfl rfl,
      exec_of_encode_eq_rdReq .pmin rfl rfl, exec_of_encode_eq_rdReq .pmax rfl rfl,
      exec_of_encode_eq_rdReq .amin rfl rfl, exec_of_encode_eq_rdReq .amax rfl rfl,
      exec_of_encode_eq_rdReq .angle rfl rfl, exec_of_encode_eq_rdReq .pulse rfl rfl,
      exec_of_encode_eq_rdReq .duty rfl rfl⟩

/-- Settles O43: an operand write has no check that could refuse it, so both answers are `answerWrite` unfolded (R97,
R98). -/
theorem operandWritesStoreTheWord : Obligations.OperandWritesStoreTheWord :=
  fun _ _ => ⟨rfl, rfl⟩

end Sys2Proof.Machine
end

section
/-! PROOFS. Exceptions (60_exceptions): bus errors, the code each command reports and when, and that a raise writes STATUS.ERR
and nothing else (R101 to R113). -/

namespace Sys2Proof.Machine

open Sys2Proof

/-! ### STATUS.ERR keeps to the codes the block writes (R102, R105) -/

theorem errorCode_legal {e : CommandError} (h : e ≠ .invalidPulse) : errorCode e ≠ 3#4 ∧ errorCode e ≤ 8#4 := by
  cases e
  case invalidPulse => exact absurd rfl h
  all_goals decide

theorem exec_keeps_errLegal {i : Instr} {s t : State} (hs : s.regs.ErrLegal) (h : exec i s = .next t) :
    t.regs.ErrLegal := by
  obtain hregs | ⟨v, hregs⟩ | ⟨v, hregs⟩ | ⟨e, he, hregs⟩ | ⟨r, -, hregs⟩ := exec_regs_cases h <;> rw [hregs]
  · exact hs
  · exact hs
  · exact hs
  · exact errorCode_legal he
  · exact ⟨(by decide : okCode ≠ 3#4), (by decide : okCode ≤ 8#4)⟩

theorem performAccess_keeps_errLegal {q : Request} {s t : State} (hs : s.regs.ErrLegal)
    (h : performAccess q s = .next t) : t.regs.ErrLegal := by
  obtain ⟨i, -, hexec⟩ | ⟨w, -, rfl⟩ | ⟨e, d, n, -, rfl⟩ := performAccess_cases h
  · exact exec_keeps_errLegal hs hexec
  · exact errorCode_legal (e := .illegalCommand) (by decide)
  · exact hs

theorem reset_errLegal : Regs.reset.ErrLegal := ⟨by decide, by decide⟩

/-- Settles O5: an access keeps ERR, clears it or writes a code other than InvalidPulse's, whose check faults instead
(log entry 6); a reset clears it. -/
theorem stepKeepsErrorCodesLegal : Obligations.StepKeepsErrorCodesLegal := by
  intro s t hs h
  obtain ⟨q, rest, -, h⟩ | ⟨rest, -, rfl⟩ | ⟨q, rest, -, h | rfl⟩ := step_cases h
  · exact performAccess_keeps_errLegal (s := { s with pending := rest }) hs h
  · exact reset_errLegal
  · exact performAccess_keeps_errLegal (s := { s with pending := .reset :: rest, nFree := s.nFree + 1 }) hs h
  · exact reset_errLegal

/-! ### Bus errors (R111, R40) -/

theorem hostWrites_iff {n : RegName} : hostWrites n = true ↔ n = .cmd ∨ n = .opa ∨ n = .opb := by
  cases n <;> decide

theorem mapAllows_write_readOnly {q : Request} {n : RegName} (hreg : regAt q.addr = some n)
    (hn : n ≠ .cmd ∧ n ≠ .opa ∧ n ≠ .opb) (hacc : q.access ≠ .read) : mapAllows q = false := by
  cases h : q.access with
  | read => exact absurd h hacc
  | write v => simp [mapAllows_write h, hreg, ← Bool.not_eq_true, hostWrites_iff, hn]

/-- An ill-formed access is answered `SLVERR`, and the registers stay (R42). -/
theorem performAccess_illFormed {q : Request} (h : wellFormedRequest q = false) (s : State) :
    ∃ d n, performAccess q s = .next { s with reply := some { resp := .slverr, data := d }, nFree := n } := by
  obtain ⟨e, hd⟩ := (busErrorsAreExactlyTheIllFormedAccesses q).mpr h
  rw [performAccess_busError s hd]
  exact answerBusError_next q s

/-- Settles O13: each of the five grounds makes the access ill formed (log entry 9 for the lanes of a read, log entry 4 for
its data). -/
theorem busErrorsChangeNoRegister : Obligations.BusErrorsChangeNoRegister := by
  intro s q rest hpending hbad
  have hill : wellFormedRequest q = false := by
    obtain hwidth | halign | hunmapped | ⟨n, hreg, hcmd, hopa, hopb, hacc⟩ | ⟨hreg, hacc⟩ := hbad
    · simp [wellFormedRequest, hwidth]
    · simp [wellFormedRequest, halign]
    · simp [wellFormedRequest, mapAllows, hunmapped]
    · simp [wellFormedRequest, mapAllows_write_readOnly hreg ⟨hcmd, hopa, hopb⟩ hacc]
    · simp [wellFormedRequest, mapAllows_read hacc, hreg, hostReads]
  obtain ⟨d, n, hanswer⟩ := performAccess_illFormed hill { s with pending := rest }
  exact ⟨_, d, (step_access hpending).trans hanswer, rfl, rfl, rfl⟩

/-! ### What each command raises (R103, R104, R106 to R109) -/

/-- The two frequency checks of R77 together refuse every frequency outside `[1, 244]`. -/
theorem frequencyChecks_iff {f : Int} : (f ≤ 0 ∨ 1000000 / f / 4096 = 0) ↔ (f ≤ 0 ∨ 245 ≤ f) := by
  obtain hf | hf := le_or_gt f 0
  · simp [hf]
  · have hlimit := one_le_periodConstant_iff hf
    obtain ⟨-, -, hnonneg, -⟩ := period_bounds hf
    omega

theorem runConfig_invalidFrequency {r : Regs} (h : operandB r ≤ 0 ∨ 245 ≤ operandB r) :
    runConfig r = .raise .invalidFrequency :=
  runConfig_raise_iff.mpr (.inl ⟨rfl, frequencyChecks_iff.mpr h⟩)

theorem runConfig_indexOutOfRange {r : Regs} (hf : 1 ≤ operandB r) (hf244 : operandB r ≤ 244)
    (h : operandA r < 0 ∨ 15 < operandA r) : runConfig r = .raise .indexOutOfRange := by
  have hu := (one_le_periodConstant_iff hf).mpr hf244
  exact runConfig_raise_iff.mpr (.inr ⟨rfl, hf, by omega, h⟩)

theorem finishCommand_whenConfigured_unconfigured {s : State} (c : CommandEnd) (h : s.regs.configured = false) :
    finishCommand (whenConfigured s.regs c) s =
      .next { s with regs := raiseError .notConfigured s.regs, reply := some { resp := .ok, data := none } } := by
  rw [whenConfigured_false c h, finishCommand_raise]

/-- Settles O25: the frequency checks come first, whatever the channel (R77); the channel check follows them. -/
theorem configRejections : Obligations.ConfigRejections :=
  fun _ => ⟨fun hf => exec_config_raise (runConfig_invalidFrequency hf),
    fun hf hf244 hch => exec_config_raise (runConfig_indexOutOfRange hf hf244 hch)⟩

/-- Settles O33: an angle outside the range is what SET_ANGLE raises on, and OutOfRange is all it raises. -/
theorem setAngleRejections : Obligations.SetAngleRejections :=
  fun _ hc hbad => finishCommand_whenConfigured_raise hc (runSetAngle_raise_iff.mpr ⟨rfl, hbad⟩)

/-- Settles O36: the NotConfigured check stands before the command's own (R74), which therefore do not matter. -/
theorem unconfiguredCommandsRaiseNotConfigured : Obligations.UnconfiguredCommandsRaiseNotConfigured := by
  intro s i hc hi
  obtain rfl | rfl | rfl := hi <;> exact finishCommand_whenConfigured_unconfigured _ hc

/-! ### A raise writes only STATUS.ERR (R113) -/

/-- The instructions whose access is to CMD are the four commands (R53). -/
theorem encode_addr_cmd_iff {i : Instr} :
    (encode i).addr = 0x00#6 ↔ i = .config ∨ i = .setPulseRange ∨ i = .setAngleRange ∨ i = .setAngle := by
  cases i <;> simp [encode, writeReq, readReq]

/-- A command frame that leaves an error has raised it. -/
theorem finishCommand_writes_only_err {c : CommandEnd} {s t : State} (h : finishCommand c s = .next t)
    (herr : t.regs.err ≠ 0#4) : t.regs = { s.regs with err := t.regs.err } := by
  obtain ⟨r, -, rfl⟩ | ⟨e, -, rfl⟩ := finishCommand_next h
  · exact absurd rfl herr
  · rfl

theorem command_writes_only_err {i : Instr} {s t : State}
    (hi : i = .config ∨ i = .setPulseRange ∨ i = .setAngleRange ∨ i = .setAngle) (h : exec i s = .next t)
    (herr : t.regs.err ≠ 0#4) : t.regs = { s.regs with err := t.regs.err } := by
  obtain rfl | rfl | rfl | rfl := hi <;> exact finishCommand_writes_only_err h herr

/-- Settles O38: an access to CMD is one of the four commands, an illegal word or a bus error. -/
theorem raisingCommandsWriteOnlyErr : Obligations.RaisingCommandsWriteOnlyErr := by
  intro s t q rest hpending haddr h herr
  rw [step_access hpending] at h
  obtain ⟨i, hd, hexec⟩ | ⟨w, -, rfl⟩ | ⟨e, d, n, -, rfl⟩ := performAccess_cases h
  · obtain rfl := (decodeAndEncodeAgree q i).mp hd
    exact command_writes_only_err (s := { s with pending := rest }) (encode_addr_cmd_iff.mp haddr) hexec herr
  · rfl
  · rfl

/-! ### The code a CMD write leaves (R112) -/

theorem finishCommand_err_of_raise {c : CommandEnd} {e : CommandError} {s t : State} (hc : c = .raise e)
    (h : finishCommand c s = .next t) : t.regs.err = errorCode e := by
  subst hc
  cases answerWrite_next h
  rfl

theorem finishCommand_err_of_no_raise {c : CommandEnd} {s t : State} (hc : ∀ e, c ≠ .raise e)
    (h : finishCommand c s = .next t) : t.regs.err = okCode := by
  obtain ⟨r, -, rfl⟩ | ⟨e, he, -⟩ := finishCommand_next h
  · rfl
  · exact absurd he (hc e)

/-- NotConfigured stands before the checks that give the command's own code. -/
theorem finishCommand_whenConfigured_err {c : CommandEnd} {k : BitVec 4} {s t : State}
    (hc : finishCommand c s = .next t → t.regs.err = k) (h : finishCommand (whenConfigured s.regs c) s = .next t) :
    t.regs.err = if s.regs.configured = false then 7#4 else k := by
  split_ifs with hconf
  · rw [whenConfigured_false c hconf] at h
    exact finishCommand_err_of_raise rfl h
  · rw [whenConfigured_true c (by simpa using hconf)] at h
    exact hc h

theorem config_err {s t : State} (h : exec .config s = .next t) :
    t.regs.err =
      if sint32 s.regs.opb ≤ 0 then 5#4
      else if 245 ≤ sint32 s.regs.opb then 5#4
      else if sint32 s.regs.opa < 0 ∨ 15 < sint32 s.regs.opa then 4#4 else 0#4 := by
  split_ifs with hf0 hf245 hch
  · exact finishCommand_err_of_raise (runConfig_invalidFrequency (.inl hf0)) h
  · exact finishCommand_err_of_raise (runConfig_invalidFrequency (.inr hf245)) h
  · obtain ⟨hf, hf244⟩ : 1 ≤ sint32 s.regs.opb ∧ sint32 s.regs.opb ≤ 244 := by omega
    exact finishCommand_err_of_raise (runConfig_indexOutOfRange hf hf244 hch) h
  · refine finishCommand_err_of_no_raise (fun e he => ?_) h
    obtain ⟨-, hfreq⟩ | ⟨-, -, -, hbad⟩ := runConfig_raise_iff.mp he
    · exact (frequencyChecks_iff.mp hfreq).elim hf0 hf245
    · exact hch hbad

theorem setPulseRange_err {s t : State} (hs : s.regs.Inv) (h : exec .setPulseRange s = .next t) :
    t.regs.err =
      if s.regs.configured = false then 7#4
      else if sint32 s.regs.opb ≤ sint32 s.regs.opa ∨ sint32 s.regs.opa < 0 then 1#4
      else if 4095 < sint32 s.regs.opb / (ppuVal s.regs * 1024) then 6#4 else 0#4 := by
  refine finishCommand_whenConfigured_err (fun hrun => ?_) h
  split_ifs with hbounds hduty
  · exact finishCommand_err_of_raise (runSetPulseRange_raise_iff.mpr (.inl ⟨rfl, hbounds⟩)) hrun
  · obtain ⟨hlt, h0⟩ : sint32 s.regs.opa < sint32 s.regs.opb ∧ 0 ≤ sint32 s.regs.opa := by omega
    have hquant := quant_eq (h0.trans hlt.le) hs.ppu_pos
    exact finishCommand_err_of_raise (runSetPulseRange_raise_iff.mpr (.inr ⟨rfl, hlt, h0, _, hquant, hduty⟩)) hrun
  · refine finishCommand_err_of_no_raise (fun e he => ?_) hrun
    obtain ⟨-, hbad⟩ | ⟨-, -, -, d, hquant, hd⟩ := runSetPulseRange_raise_iff.mp he
    · exact hbounds hbad
    · obtain ⟨-, -, rfl⟩ := quant_ok_iff.mp hquant
      exact hduty hd

theorem setAngleRange_err {s t : State} (h : exec .setAngleRange s = .next t) :
    t.regs.err =
      if s.regs.configured = false then 7#4
      else if sint32 s.regs.opb ≤ sint32 s.regs.opa then 1#4 else 0#4 := by
  refine finishCommand_whenConfigured_err (fun hrun => ?_) h
  split_ifs with hbounds
  · exact finishCommand_err_of_raise (runSetAngleRange_raise_iff.mpr ⟨rfl, hbounds⟩) hrun
  · exact finishCommand_err_of_no_raise (fun e he => hbounds (runSetAngleRange_raise_iff.mp he).2) hrun

theorem setAngle_err {s t : State} (h : exec .setAngle s = .next t) :
    t.regs.err =
      if s.regs.configured = false then 7#4
      else if sint32 s.regs.opa < sint32 s.regs.amin ∨ sint32 s.regs.amax < sint32 s.regs.opa then 2#4 else 0#4 := by
  refine finishCommand_whenConfigured_err (fun hrun => ?_) h
  split_ifs with hrange
  · exact finishCommand_err_of_raise (runSetAngle_raise_iff.mpr ⟨rfl, hrange⟩) hrun
  · exact finishCommand_err_of_no_raise (fun e he => hrange (runSetAngle_raise_iff.mp he).2) hrun

theorem performAccess_illegalWord_err {w : Word} {s t : State} (hw : ¬ (1 ≤ w.toNat ∧ w.toNat ≤ 4))
    (h : performAccess (writeReq 0x00#6 w) s = .next t) : t.regs.err = 8#4 := by
  have hnone : decodeCommand w = none := by
    refine decodeCommand_eq_none ?_ ?_ ?_ ?_ <;> rintro rfl <;> exact hw (by decide)
  rw [performAccess_illegalCommand s (decode_write_cmd_illegal hnone)] at h
  exact finishCommand_err_of_raise rfl h

theorem commandWord_cases {w : Word} (h : 1 ≤ w.toNat ∧ w.toNat ≤ 4) :
    w = 1#32 ∨ w = 2#32 ∨ w = 3#32 ∨ w = 4#32 := by
  bv_omega

theorem eq_writeReq_of_wellFormed {q : Request} {v : Word} (h : wellFormedRequest q = true) (hacc : q.access = .write v) :
    q = writeReq q.addr v := by
  simp only [wellFormedRequest, Bool.and_eq_true] at h
  obtain ⟨⟨hwhole, -⟩, -⟩ := h
  exact eq_writeReq hwhole hacc

theorem exec_of_performAccess_encode {i : Instr} {s t : State} (h : performAccess (encode i) s = .next t) :
    exec i s = .next t :=
  (performAccess_instr s (decode_encode i)).symm.trans h

/-- Settles O37: a bus error leaves ERR; an illegal word is IllegalCommand; a command word is its command, whose code one
lemma for each command gives. -/
theorem firstFailingCheckIsReported : Obligations.FirstFailingCheckIsReported := by
  intro s q rest hs hpending
  obtain ⟨t, ht⟩ := performAccess_completes q (s := { s with pending := rest }) hs
  refine ⟨t, (step_access hpending).trans ht, fun hill => ?illFormed, fun w hwell haddr hacc => ?write⟩
  case illFormed =>
    obtain ⟨d, n, hanswer⟩ := performAccess_illFormed hill { s with pending := rest }
    rw [hanswer] at ht
    cases ht
    rfl
  case write =>
    rw [eq_writeReq_of_wellFormed hwell hacc, haddr] at ht
    by_cases hw : 1 ≤ w.toNat ∧ w.toNat ≤ 4
    case neg => rw [if_pos hw, performAccess_illegalWord_err hw ht]
    case pos =>
      obtain rfl | rfl | rfl | rfl := commandWord_cases hw
      · simpa using config_err (exec_of_performAccess_encode (i := .config) ht)
      · simpa using setPulseRange_err (s := { s with pending := rest }) hs
          (exec_of_performAccess_encode (i := .setPulseRange) ht)
      · simpa using setAngleRange_err (exec_of_performAccess_encode (i := .setAngleRange) ht)
      · simpa using setAngle_err (exec_of_performAccess_encode (i := .setAngle) ht)

end Sys2Proof.Machine
end

section
/-! PROOFS. Reset and hazards (70_reset): what an unconfigured block holds, what a reset leaves and what an access that
overlaps it does, the first boot step, and the order of the two range commands (R124 to R128). -/

namespace Sys2Proof.Machine

open Sys2Proof

/-! ### An unconfigured block holds the reset image but for the operands and ERR (R126) -/

/-- Every register but OPA, OPB and ERR is at its reset value. -/
def Regs.HoldsResetImage (r : Regs) : Prop :=
  r = { Regs.reset with opa := r.opa, opb := r.opb, err := r.err }

theorem reset_holdsResetImage : Regs.reset.HoldsResetImage := rfl

theorem Regs.HoldsResetImage.with_operands_err {r : Regs} (h : r.HoldsResetImage) (a b : Word) (e : BitVec 4) :
    { r with opa := a, opb := b, err := e }.HoldsResetImage := by
  rw [Regs.HoldsResetImage] at h ⊢
  rw [h]

theorem runConfig_sets_configured {r t : Regs} (h : runConfig r = .commit t) : t.configured = true := by
  obtain ⟨-, -, hcommit⟩ := runConfig_commit h
  obtain ⟨p, d, rfl⟩ := commitPosition_keeps hcommit
  rfl

/-- What a command commits is configured: CONFIG sets CONFIGURED, the others run only where it is set and keep it. -/
theorem commit_configured {r t : Regs}
    (h : runConfig r = .commit t ∨ (r.configured = true ∧ (runSetPulseRange r = .commit t ∨
      runSetAngleRange r = .commit t ∨ runSetAngle r = .commit t))) : t.configured = true := by
  obtain h | ⟨hc, h | h | h⟩ := h
  · exact runConfig_sets_configured h
  · exact (runSetPulseRange_keeps_configured h).trans hc
  · exact (runSetAngleRange_keeps_configured h).trans hc
  · exact (runSetAngle_keeps_configured h).trans hc

/-- An instruction that leaves the block unconfigured has committed nothing. -/
theorem exec_unconfigured_regs {i : Instr} {s t : State} (h : exec i s = .next t) (ht : t.regs.configured = false) :
    ∃ a b e, t.regs = { s.regs with opa := a, opb := b, err := e } := by
  obtain hregs | ⟨v, hregs⟩ | ⟨v, hregs⟩ | ⟨e, -, hregs⟩ | ⟨r, hrun, hregs⟩ := exec_regs_cases h
  · exact ⟨_, _, _, hregs⟩
  · exact ⟨_, _, _, hregs⟩
  · exact ⟨_, _, _, hregs⟩
  · exact ⟨_, _, _, hregs⟩
  · rw [hregs] at ht
    exact absurd ((commit_configured hrun).symm.trans ht) (by decide)

/-- An access that leaves the block unconfigured found it so, and wrote no register but OPA, OPB and ERR. -/
theorem performAccess_unconfigured {q : Request} {s t : State} (h : performAccess q s = .next t)
    (ht : t.regs.configured = false) :
    s.regs.configured = false ∧ ∃ a b e, t.regs = { s.regs with opa := a, opb := b, err := e } := by
  have hwrites : ∃ a b e, t.regs = { s.regs with opa := a, opb := b, err := e } := by
    obtain ⟨i, -, hexec⟩ | ⟨w, -, rfl⟩ | ⟨e, d, n, -, rfl⟩ := performAccess_cases h
    · exact exec_unconfigured_regs hexec ht
    · exact ⟨_, _, _, rfl⟩
    · exact ⟨_, _, _, rfl⟩
  refine ⟨?_, hwrites⟩
  obtain ⟨a, b, e, hregs⟩ := hwrites
  rwa [hregs] at ht

theorem performAccess_keeps_resetImage {q : Request} {s t : State}
    (hs : s.regs.configured = false → s.regs.HoldsResetImage) (h : performAccess q s = .next t)
    (ht : t.regs.configured = false) : t.regs.HoldsResetImage := by
  obtain ⟨hc, a, b, e, hregs⟩ := performAccess_unconfigured h ht
  rw [hregs]
  exact (hs hc).with_operands_err a b e

/-- Settles O7: an access that leaves the block unconfigured moves only what the image leaves out, and a reset loads the
image. -/
theorem unconfiguredRegistersHoldTheResetImage : Obligations.UnconfiguredRegistersHoldTheResetImage := by
  intro s t hs h
  obtain ⟨q, rest, -, h⟩ | ⟨rest, -, rfl⟩ | ⟨q, rest, -, h | rfl⟩ := step_cases h
  · exact performAccess_keeps_resetImage (s := { s with pending := rest }) hs h
  · exact fun _ => reset_holdsResetImage
  · exact performAccess_keeps_resetImage (s := { s with pending := .reset :: rest, nFree := s.nFree + 1 }) hs h
  · exact fun _ => reset_holdsResetImage

/-! ### A reset, and an access that overlaps it (R124) -/

/-- Settles O48: `applyReset` replaces the registers, whatever they were, and keeps the requests (log entry 11). -/
theorem resetStepLoadsTheImage : Obligations.ResetStepLoadsTheImage :=
  fun _ _ hpending => ⟨_, step_reset hpending, rfl, rfl, rfl, rfl, rfl⟩

theorem performAccess_keeps_pending {q : Request} {s t : State} (h : performAccess q s = .next t) :
    t.pending = s.pending := by
  obtain ⟨i, -, hexec⟩ | ⟨w, -, rfl⟩ | ⟨e, d, n, -, rfl⟩ := performAccess_cases h
  · exact (exec_next_frame hexec).1
  · rfl
  · rfl

theorem step_resetDuring {s : State} {q : Request} {rest : List HostStep} (h : s.pending = .resetDuring q :: rest) :
    step s =
      if Config.overlapPerformed s.nFree then
        performAccess q { s with pending := .reset :: rest, nFree := s.nFree + 1 }
      else .next (applyReset { s with pending := rest, nFree := s.nFree + 1 }) := by
  rw [step_cons h]
  rfl

/-- Settles O49: the free choice decides (log entry 5); where it performs the access, the step is the one of a state
that requests the access and then the reset, and no access moves the requests. -/
theorem overlappedAccessIsWholeOrAbsent : Obligations.OverlappedAccessIsWholeOrAbsent := by
  intro s q rest hpending
  have hstep := step_resetDuring hpending
  split at hstep
  case isTrue =>
    refine .inr ⟨{ s with pending := .access q :: .reset :: rest, nFree := s.nFree + 1 }, rfl, rfl, ?_,
      fun t ht => ?_⟩
    · rw [hstep, step_access rfl]
    · exact performAccess_keeps_pending (hstep.symm.trans ht)
  case isFalse => exact .inl hstep

/-! ### Steps on encoded accesses after a reset (R126, R127) -/

/-- The step on the access of an instruction is the instruction. -/
theorem step_encode {s : State} {rest : List HostStep} (i : Instr) (h : s.pending = .access (encode i) :: rest) :
    step s = exec i { s with pending := rest } :=
  stepRunsTheDecodedInstruction s (encode i) rest i h (decode_encode i)

theorem core_run_encode {s t : State} {rest : List HostStep} {i : Instr} {k : Nat}
    (h : s.pending = .access (encode i) :: rest) (hexec : exec i { s with pending := rest } = .next t) :
    Host.Core.run Sys2Proof.core (k + 1) s = Host.Core.run Sys2Proof.core k t :=
  core_run_next ((step_encode i h).trans hexec)

/-- The command words 2, 3 and 4 are the encodings of the three commands that need a configured block. -/
theorem wrReq_cmd_eq_encode {w : Word} (hw : w = 2#32 ∨ w = 3#32 ∨ w = 4#32) :
    ∃ i, (i = .setPulseRange ∨ i = .setAngleRange ∨ i = .setAngle) ∧ wrReq .cmd w = encode i := by
  obtain rfl | rfl | rfl := hw
  · exact ⟨.setPulseRange, .inl rfl, rfl⟩
  · exact ⟨.setAngleRange, .inr (.inl rfl), rfl⟩
  · exact ⟨.setAngle, .inr (.inr rfl), rfl⟩

/-- Settles O50: the reset clears CONFIGURED and keeps the write behind it (log entry 11), whose command then raises
NotConfigured on the reset image. -/
theorem afterResetCommandsAreNotConfigured : Obligations.AfterResetCommandsAreNotConfigured := by
  intro s w rest hw hpending
  obtain ⟨i, hi, hencode⟩ := wrReq_cmd_eq_encode hw
  rw [hencode] at hpending
  have hcommand := unconfiguredCommandsRaiseNotConfigured (applyReset { s with pending := rest }) i rfl hi
  exact ⟨_, (core_run_next (step_reset hpending)).trans (core_run_encode rfl hcommand), rfl, rfl, rfl⟩

/-- STATUS of a configured block with no error (R26). -/
theorem statusWord_configured {r : Regs} (hc : r.configured = true) (he : r.err = 0#4) :
    statusWord r = 0x00000010#32 := by
  rw [statusWord, hc, he]
  rfl

/-- The two operand writes that stand before a command (R63). -/
theorem core_run_operandWrites {s : State} {a b : Word} {rest : List HostStep}
    (h : s.pending = .access (wrReq .opa a) :: .access (wrReq .opb b) :: rest) (k : Nat) :
    Host.Core.run Sys2Proof.core (k + 2) s = Host.Core.run Sys2Proof.core k { s with
      regs := { s.regs with opa := a, opb := b }, pending := rest, reply := some { resp := .ok, data := none } } := by
  refine (core_run_encode (i := .wrOpa a) h (operandWritesStoreTheWord _ a).1).trans ?_
  exact core_run_encode (i := .wrOpb b) rfl (operandWritesStoreTheWord _ b).2

theorem exec_config_of_operandsLegal {s : State} (h : s.regs.ConfigOperandsLegal) :
    ∃ t, exec .config s = .next t ∧ t.regs.err = 0#4 ∧ t.regs.configured = true ∧ t.regs.Inv := by
  obtain ⟨t, hconfig, -, hsucceeds, hinv⟩ := successfulConfigEstablishesInvariants s
  have herr := hsucceeds.mpr h
  obtain ⟨-, -, -, hc⟩ | ⟨e, hregs⟩ := config_regs hconfig
  · exact ⟨t, hconfig, herr, hc, (hinv herr).1⟩
  · rw [hregs] at herr
    exact absurd herr (errorCode_ne_okCode e)

/-- CONFIG on legal operands, then the read of STATUS that checks it. -/
theorem core_run_config_status {s : State} {rest : List HostStep} (hs : s.regs.ConfigOperandsLegal)
    (hpending : s.pending = .access (wrReq .cmd 1#32) :: .access (rdReq .status) :: rest) :
    ∃ t : State, Host.Core.run Sys2Proof.core 2 s = .next t ∧ t.pending = rest ∧
      t.reply = some { resp := .ok, data := some 0x00000010#32 } ∧ t.regs.Inv := by
  obtain ⟨t, hconfig, herr, hc, hinv⟩ :=
    exec_config_of_operandsLegal (s := { s with pending := .access (rdReq .status) :: rest }) hs
  obtain ⟨hrest, -, -⟩ := exec_next_frame hconfig
  have hread : exec .rdStatus { t with pending := rest } = answerRead 0x00000010#32 { t with pending := rest } :=
    exec_of_encode_eq_rdReq .status rfl (congrArg some (statusWord_configured hc herr))
  exact ⟨_, (core_run_encode (i := .config) hpending hconfig).trans (core_run_encode (i := .rdStatus) hrest hread),
    rfl, rfl, hinv⟩

/-- Settles O47: the two writes store the operands, CONFIG succeeds on legal ones from every state (R78), and the read
answers STATUS (R127 step 1). -/
theorem bootSequenceReadsConfigured : Obligations.BootSequenceReadsConfigured := by
  intro s ch f rest h0 h15 hf hf244 hpending
  rw [core_run_operandWrites hpending 2]
  exact core_run_config_status ⟨hf, hf244, h0, h15⟩ rfl

/-! ### The two range commands in either order (R128) -/

/-- PULSE and DUTY computed for the angle and the ranges the registers hold, and ERR 0: what a commit leaves (R74). -/
def Regs.positioned (r : Regs) : Regs :=
  { r with
    pulse := word32 (sint32 r.pmin + (sint32 r.pmax - sint32 r.pmin) * (sint32 r.angle - sint32 r.amin) /
      (sint32 r.amax - sint32 r.amin))
    duty := BitVec.ofInt 12 ((sint32 r.pmin + (sint32 r.pmax - sint32 r.pmin) * (sint32 r.angle - sint32 r.amin) /
      (sint32 r.amax - sint32 r.amin)) / (ppuVal r * 1024))
    err := okCode }

/-- What SET_PULSE_RANGE with the operands `lo` and `hi` leaves when it succeeds. -/
def Regs.afterPulseRange (r : Regs) (lo hi : Word) : Regs :=
  { r with opa := lo, opb := hi, pmin := lo, pmax := hi }.positioned

/-- What SET_ANGLE_RANGE with the operands `lo` and `hi` leaves when it succeeds. -/
def Regs.afterAngleRange (r : Regs) (lo hi : Word) : Regs :=
  { r with
    opa := lo, opb := hi, amin := lo, amax := hi
    angle := word32 (clamp (sint32 r.angle) (sint32 lo) (sint32 hi)) }.positioned

/-- The position reads neither the operands nor the earlier PULSE and DUTY, so the command that comes second computes it
from the same angle and ranges in both orders: only the operands of the last command tell them apart. -/
theorem afterRanges_commute (r : Regs) (plo phi alo ahi : Word) :
    (r.afterAngleRange alo ahi).afterPulseRange plo phi =
        { (r.afterPulseRange plo phi).afterAngleRange alo ahi with opa := plo, opb := phi } ∧
      (r.afterPulseRange plo phi).afterAngleRange alo ahi =
        { (r.afterAngleRange alo ahi).afterPulseRange plo phi with opa := alo, opb := ahi } :=
  ⟨rfl, rfl⟩

/-- The bounds SET_PULSE_RANGE accepts at the period constant `u`. -/
def PulseRangeLegal (u : Int) (lo hi : Word) : Prop :=
  0 ≤ sint32 lo ∧ sint32 lo < sint32 hi ∧ sint32 hi ≤ 4096 * u * 1024 - 1

/-- The state with the given operands in OPA and OPB. -/
def State.withOperands (s : State) (a b : Word) : State := { s with regs := { s.regs with opa := a, opb := b } }

/-- The state that a write answered `OK` leaves with the registers `r`. -/
def State.afterWrite (s : State) (r : Regs) : State := { s with regs := r, reply := some { resp := .ok, data := none } }

section
variable {s t : State} {lo hi : Word} (hs : s.regs.Inv) (hc : s.regs.configured = true)
include hs hc

theorem exec_setPulseRange_of_legal (h : PulseRangeLegal (ppuVal s.regs) lo hi) :
    exec .setPulseRange (s.withOperands lo hi) = .next (s.afterWrite (s.regs.afterPulseRange lo hi)) := by
  obtain ⟨h0, hlt, hmax⟩ := h
  exact setPulseRangeCompletes (s.withOperands lo hi) (hs.with_operands_status lo hi _ _) hc h0 hlt hmax _ rfl

theorem exec_setAngleRange_of_legal (h : sint32 lo < sint32 hi) :
    exec .setAngleRange (s.withOperands lo hi) = .next (s.afterWrite (s.regs.afterAngleRange lo hi)) := by
  have hclamp : sint32 (word32 (clamp (sint32 s.regs.angle) (sint32 lo) (sint32 hi))) = _ :=
    sint32_word32_clamp (r := (s.withOperands lo hi).regs) h _
  have hexec := setAngleRangeCompletes (s.withOperands lo hi) (hs.with_operands_status lo hi _ _) hc h _ _ rfl rfl
  simp only [Regs.afterAngleRange, Regs.positioned, hclamp]
  exact hexec

theorem afterPulseRange_inv (h : PulseRangeLegal (ppuVal s.regs) lo hi) : (s.regs.afterPulseRange lo hi).Inv :=
  exec_keeps_inv (s := s.withOperands lo hi) (hs.with_operands_status lo hi _ _)
    (exec_setPulseRange_of_legal hs hc h)

theorem afterAngleRange_inv (h : sint32 lo < sint32 hi) : (s.regs.afterAngleRange lo hi).Inv :=
  exec_keeps_inv (s := s.withOperands lo hi) (hs.with_operands_status lo hi _ _)
    (exec_setAngleRange_of_legal hs hc h)

/-- A SET_PULSE_RANGE that succeeds had legal bounds, for each check that fails raises an error. -/
theorem setPulseRange_success (h : exec .setPulseRange (s.withOperands lo hi) = .next t) (herr : t.regs.err = 0#4) :
    PulseRangeLegal (ppuVal s.regs) lo hi ∧ t = s.afterWrite (s.regs.afterPulseRange lo hi) := by
  obtain ⟨hinvalid, hduty⟩ := setPulseRangeRejections (s.withOperands lo hi) hc
  have hbounds : ¬ (sint32 hi ≤ sint32 lo ∨ sint32 lo < 0) := fun hbad => by
    cases h.symm.trans (hinvalid hbad)
    cases herr
  obtain ⟨h0, hlt⟩ : 0 ≤ sint32 lo ∧ sint32 lo < sint32 hi := by omega
  have hfits : ¬ 4096 * ppuVal s.regs * 1024 ≤ sint32 hi := fun hlarge => by
    cases h.symm.trans (hduty (hs.with_operands_status lo hi _ _) h0 hlt hlarge)
    cases herr
  have hlegal : PulseRangeLegal (ppuVal s.regs) lo hi := ⟨h0, hlt, by omega⟩
  exact ⟨hlegal, Host.Outcome.next.inj (h.symm.trans (exec_setPulseRange_of_legal hs hc hlegal))⟩

theorem setAngleRange_success (h : exec .setAngleRange (s.withOperands lo hi) = .next t) (herr : t.regs.err = 0#4) :
    sint32 lo < sint32 hi ∧ t = s.afterWrite (s.regs.afterAngleRange lo hi) := by
  have hlegal : sint32 lo < sint32 hi := by
    by_contra hbad
    cases h.symm.trans (setAngleRangeRejections (s.withOperands lo hi) hc (not_lt.mp hbad))
    cases herr
  exact ⟨hlegal, Host.Outcome.next.inj (h.symm.trans (exec_setAngleRange_of_legal hs hc hlegal))⟩

end

/-- Settles O46: bounds legal in one order are legal in the other, for neither command writes what the other's checks
read, and `afterRanges_commute` compares the registers both orders leave. -/
theorem rangeCommandsCommute : Obligations.RangeCommandsCommute := by
  intro s a b c plo phi alo ahi hs hc
  obtain ⟨hpulseLast, hangleLast⟩ := afterRanges_commute s.regs plo phi alo ahi
  refine ⟨fun hfirst herr hsecond herr' => ?pulseFirst, fun hfirst herr hsecond herr' => ?angleFirst⟩
  case pulseFirst =>
    obtain ⟨hpulse, rfl⟩ := setPulseRange_success hs hc hfirst herr
    obtain ⟨hangle, rfl⟩ := setAngleRange_success (s := s.afterWrite (s.regs.afterPulseRange plo phi))
      (afterPulseRange_inv hs hc hpulse) hc hsecond herr'
    exact ⟨_, _, exec_setAngleRange_of_legal hs hc hangle, rfl,
      exec_setPulseRange_of_legal (s := s.afterWrite (s.regs.afterAngleRange alo ahi))
        (afterAngleRange_inv hs hc hangle) hc hpulse, hpulseLast⟩
  case angleFirst =>
    obtain ⟨hangle, rfl⟩ := setAngleRange_success hs hc hfirst herr
    obtain ⟨hpulse, rfl⟩ := setPulseRange_success (s := s.afterWrite (s.regs.afterAngleRange alo ahi))
      (afterAngleRange_inv hs hc hangle) hc hsecond herr'
    exact ⟨_, _, exec_setPulseRange_of_legal hs hc hpulse, rfl,
      exec_setAngleRange_of_legal (s := s.afterWrite (s.regs.afterPulseRange plo phi))
        (afterPulseRange_inv hs hc hpulse) hc hangle, hangleLast⟩

end Sys2Proof.Machine
end
